-- ==== Sys2Proof/Word.lean ====
section
/-! DEFINITION. The word types of the block: the command word (30_encoding.md R70) and the byte
(20_memory.md R60). -/

namespace Sys2Proof

/-- A byte: the unit of PIX and OUT (R50, R60). -/
abbrev Byte := BitVec 8

/-- A command word, a 64-bit value with no byte order (R70). -/
abbrev CmdWord := BitVec 64

end Sys2Proof
end

