-- ==== Sys2Proof/Syntax.lean ====
section
/-! DEFINITION. The commands of the block: one constructor per row of spec/opcode_table.json. -/

namespace Sys2Proof

/-- The block's commands (30_encoding.md R73). CONFIGURE has two rows in the table, DP = 0 and DP = 1, so it has two
constructors. The pixel buffer of ADD_FRAME is no field of the word (R72): it is PIX, in the state.

The operand types are the word's own field widths (R71), so every term of this type is a command that can be encoded.
What can be ill-formed is a word; see Sys2Proof/WellFormed.lean. -/
inductive Instr where
  /-- CONFIGURE with the delay option absent (DP = 0): width, height. -/
  | configureDefault (w h : BitVec 16)
  /-- CONFIGURE with the delay option present (DP = 1): width, height, delay in milliseconds. -/
  | configureDelay (w h : BitVec 16) (d : BitVec 23)
  /-- ADD_FRAME. -/
  | addFrame
  /-- FINISH. -/
  | finish
  /-- READ_OUTPUT. -/
  | readOutput
  /-- GET_BLOB. -/
  | getBlob
deriving DecidableEq, Repr

end Sys2Proof
end

