-- ==== Sys2Proof/WellFormed.lean ====
section
/-! DEFINITION. Which command words are legal, check by check, from 30_encoding.md R74 and R75. The decoder
(Sys2Proof/Decode.lean) is written from R76 and does not use this file; that the two agree is a statement. -/

namespace Sys2Proof

/-- R75: OPC is one of the five assigned opcodes (R73). -/
def WordCheck.opcodeAssigned (cmd : CmdWord) : Bool :=
  let opc := (cmd.extractLsb' 0 8).toNat
  decide (1 ≤ opc) && decide (opc ≤ 5)

/-- R74, first point: a command that is not CONFIGURE has bits 63:8 zero. -/
def WordCheck.unusedBitsZero (cmd : CmdWord) : Bool :=
  decide (cmd.extractLsb' 0 8 = 0x01#8) || decide (cmd.extractLsb' 8 56 = 0#56)

/-- R74, second point: CONFIGURE with DP = 0 has bits 62:40 (D) zero. -/
def WordCheck.absentDelayZero (cmd : CmdWord) : Bool :=
  !decide (cmd.extractLsb' 0 8 = 0x01#8) || cmd.getLsbD 63 || decide (cmd.extractLsb' 40 23 = 0#23)

/-- A well-formed command word: one that breaks no condition of R74 and R75. -/
def CmdWord.wellFormed (cmd : CmdWord) : Bool :=
  WordCheck.opcodeAssigned cmd && WordCheck.unusedBitsZero cmd && WordCheck.absentDelayZero cmd

end Sys2Proof
end

