-- ==== Sys2Proof/Decode.lean ====
section
/-! DEFINITION. The decoder (30_encoding.md R72, R76), the encoder (R71, R73) and the opcode table as rows of mask and
pattern (spec/opcode_table.json). -/

namespace Sys2Proof

/-- R72: opc = cmd[7:0]. -/
def fieldOpc (cmd : CmdWord) : BitVec 8 := cmd.extractLsb' 0 8

/-- R72: width = cmd[23:8]. -/
def fieldW (cmd : CmdWord) : BitVec 16 := cmd.extractLsb' 8 16

/-- R72: height = cmd[39:24]. -/
def fieldH (cmd : CmdWord) : BitVec 16 := cmd.extractLsb' 24 16

/-- R72: delayArg = cmd[62:40]. -/
def fieldD (cmd : CmdWord) : BitVec 23 := cmd.extractLsb' 40 23

/-- R72: dp = cmd[63]. -/
def fieldDP (cmd : CmdWord) : Bool := cmd.getLsbD 63

/-- cmd[63:8], the bits a command without operands must have zero (R74). -/
def fieldUnused (cmd : CmdWord) : BitVec 56 := cmd.extractLsb' 8 56

/-- A command whose opcode is recognised and which has no operands: legal only if bits 63:8 are zero (R76). -/
def decodeNoArg (cmd : CmdWord) (i : Instr) : Option Instr :=
  if fieldUnused cmd = 0#56 then some i else none

/-- CONFIGURE (R76): with DP = 0 the field D must be zero. -/
def decodeConfigure (cmd : CmdWord) : Option Instr :=
  if fieldDP cmd then some (.configureDelay (fieldW cmd) (fieldH cmd) (fieldD cmd))
  else if fieldD cmd = 0#23 then some (.configureDefault (fieldW cmd) (fieldH cmd))
  else none

/-- decode(cmd) of R76. Total; `none` is ILLEGAL, which a step turns into the fault ILLEGAL_COMMAND. -/
def decode (cmd : CmdWord) : Option Instr :=
  if fieldOpc cmd = 0x01#8 then decodeConfigure cmd
  else if fieldOpc cmd = 0x02#8 then decodeNoArg cmd .addFrame
  else if fieldOpc cmd = 0x03#8 then decodeNoArg cmd .finish
  else if fieldOpc cmd = 0x04#8 then decodeNoArg cmd .readOutput
  else if fieldOpc cmd = 0x05#8 then decodeNoArg cmd .getBlob
  else none

/-- A word from its five fields, high field first (R71). -/
def packWord (dp : BitVec 1) (d : BitVec 23) (h w : BitVec 16) (opc : BitVec 8) : CmdWord :=
  dp ++ d ++ h ++ w ++ opc

/-- The word of a command (R71, R73, R74). -/
def encode : Instr → CmdWord
  | .configureDefault w h => packWord 0#1 0#23 h w 0x01#8
  | .configureDelay w h d => packWord 1#1 d h w 0x01#8
  | .addFrame => packWord 0#1 0#23 0#16 0#16 0x02#8
  | .finish => packWord 0#1 0#23 0#16 0#16 0x03#8
  | .readOutput => packWord 0#1 0#23 0#16 0#16 0x04#8
  | .getBlob => packWord 0#1 0#23 0#16 0#16 0x05#8

/-- The "mask" of an instruction's row in spec/opcode_table.json: the bits the row fixes. -/
def rowMask : Instr → CmdWord
  | .configureDefault _ _ => 0xFFFFFF00000000FF#64
  | .configureDelay _ _ _ => 0x80000000000000FF#64
  | .addFrame => 0xFFFFFFFFFFFFFFFF#64
  | .finish => 0xFFFFFFFFFFFFFFFF#64
  | .readOutput => 0xFFFFFFFFFFFFFFFF#64
  | .getBlob => 0xFFFFFFFFFFFFFFFF#64

/-- The "match" of an instruction's row in spec/opcode_table.json: the value of the fixed bits. -/
def rowMatch : Instr → CmdWord
  | .configureDefault _ _ => 0x0000000000000001#64
  | .configureDelay _ _ _ => 0x8000000000000001#64
  | .addFrame => 0x0000000000000002#64
  | .finish => 0x0000000000000003#64
  | .readOutput => 0x0000000000000004#64
  | .getBlob => 0x0000000000000005#64

/-- The rows of spec/opcode_table.json as (mask, match), in the table's order. -/
def opcodeRows : List (CmdWord × CmdWord) :=
  [ (0xFFFFFF00000000FF#64, 0x0000000000000001#64)
  , (0x80000000000000FF#64, 0x8000000000000001#64)
  , (0xFFFFFFFFFFFFFFFF#64, 0x0000000000000002#64)
  , (0xFFFFFFFFFFFFFFFF#64, 0x0000000000000003#64)
  , (0xFFFFFFFFFFFFFFFF#64, 0x0000000000000004#64)
  , (0xFFFFFFFFFFFFFFFF#64, 0x0000000000000005#64) ]

/-- The instruction the decoder reads from a table row's word: the row's bits are the command word's own bits (R70: the word
is a value, so there is no byte order to lay out), and the bits above nbits are zero. -/
def decodeTableWord (nbits w : Nat) : Option Instr :=
  decode (BitVec.ofNat 64 (w % 2 ^ nbits))

end Sys2Proof
end

