-- ==== Sys2Proof/Machine/Work.lean ====
section
/-! DEFINITION. The types of the per-frame working state (10_state.md R32 to R37). -/

namespace Sys2Proof.Machine

/-- A colour or Color Sample: an (R,G,B) triple of 8-bit values (R32, R36). -/
structure Rgb where
  r : Byte
  g : Byte
  b : Byte
deriving DecidableEq, Repr, Inhabited

/-- A colour channel (41_palette_quantizer.md R102: 0 = R, 1 = G, 2 = B). -/
inductive Channel where
  | red
  | green
  | blue
deriving DecidableEq, Repr, Inhabited

/-- A bucket of median cut: an ordered list of Color Samples (R36). -/
abbrev Bucket := List Rgb

/-- The dictionary: a finite map from index sequences to codes, as a list of entries (R34; 43_lzw_compressor.md R151). -/
abbrev Dict := List (List Byte × Nat)

/-- The compressor state (R34). -/
structure Compressor where
  /-- DICT. -/
  dict : Dict
  /-- codeSize, the current code width. -/
  codeSize : Nat
  /-- nextCode, the next assignable code. -/
  nextCode : Nat
  /-- cur, the current matched sequence. -/
  cur : List Byte
deriving DecidableEq, Repr, Inhabited

/-- The packer state (R35). -/
structure Packer where
  /-- BITBUF, the running bit buffer. -/
  bitbuf : Nat
  /-- BITCNT, the number of pending bits. -/
  bitcnt : Nat
  /-- SB, the current sub-block buffer. -/
  sb : List Byte
deriving DecidableEq, Repr, Inhabited

/-- The whole per-frame working state (R32 to R36). -/
structure Work where
  /-- PAL, the palette file (R32). -/
  pal : List Rgb
  /-- IDX, the index buffer (R33). -/
  idx : List Byte
  /-- DICT, codeSize, nextCode, cur (R34). -/
  comp : Compressor
  /-- BITBUF, BITCNT, SB (R35). -/
  pack : Packer
  /-- SAMPLES (R36). -/
  samples : List Rgb
  /-- BUCKETS (R36). -/
  buckets : List Bucket
deriving DecidableEq, Repr, Inhabited

/-- The compressor while LZW_COMPRESS runs (43_lzw_compressor.md R161): its state, the packer's, and the bytes it has appended
to OUT so far, in order. -/
structure Lzw where
  comp : Compressor
  pack : Packer
  appended : List Byte
deriving DecidableEq, Repr, Inhabited

end Sys2Proof.Machine
end

