-- ==== Sys2Proof/Config.lean ====
section
/-! DEFINITION. What an implementation fixes (the parameters of 00_scope.md R9) and the values the spec leaves free.

The free values are opaque: nothing in Lean can evaluate them, so a statement that mentions one holds whatever it is. Each is
numbered by the state's counter freeCount, so that two occasions need not give the same value. -/

namespace Sys2Proof

/-- The implementation parameters (R9): "A model takes each one as an argument." They are fixed for a run (R182).
`none` is `unbounded`. -/
structure Config.Params where
  /-- OUT_CAPACITY: most bytes the output memory holds (20_memory.md R52). -/
  outCapacity : Option Nat
  /-- MAX_FRAME_PIXELS: largest width·height the block accepts (44_container_commands.md R185). -/
  maxFramePixels : Option Nat
  /-- ZERO_DELAY_MEANS_DEFAULT: whether an explicit delay of 0 ms is replaced by 100 ms (R185). -/
  zeroDelayMeansDefault : Bool
deriving DecidableEq, Repr

/-- The spec defaults of R9. -/
def Config.specDefault : Config.Params :=
  { outCapacity := none, maxFramePixels := none, zeroDelayMeansDefault := false }

/-- FREE VALUE (assumption log 6): the per-frame working state after an ADD_FRAME or a RESET. "Its value between commands and
after RESET is unspecified" (10_state.md R37; 93 U10: any value). -/
opaque Config.freeWork : Nat → Machine.Work

/-- FREE VALUE (assumption log 7): the contents of OUT after a CAPACITY fault raised by an append (60_exceptions.md R204;
93 U8: any value). Its length is the free OUT_LEN. -/
opaque Config.freeOut : Nat → List Byte

/-- FREE VALUE (assumption log 8): STATUS.HDR after a CAPACITY fault raised by an append ("may be 0 or 1", R204). -/
opaque Config.freeHdr : Nat → Bool

end Sys2Proof
end

