-- ==== Sys2Proof/Machine/State.lean ====
section
/-! DEFINITION. The block's state as plain data (10_state.md; 20_memory.md), the reasons a step can stop, and the state after
reset. -/

namespace Sys2Proof.Machine

/-- The fault codes (60_exceptions.md R200). The reserved codes 8 to 15 are never raised (93 U17), so they are no values of
this type (assumption log 13). These are the SPEC's faults: a command that raises one ends in a next state (R202). -/
inductive FaultCode where
  /-- 0: no fault. -/
  | none
  /-- 1: the word is illegal. -/
  | illegalCommand
  /-- 2: a command other than CONFIGURE while STATUS.CFG = 0. -/
  | notConfigured
  /-- 3: ADD_FRAME or FINISH while STATUS.FIN = 1. -/
  | afterFinish
  /-- 4: CONFIGURE with W = 0 or H = 0. -/
  | badDimensions
  /-- 5: CONFIGURE with an effective delay above 655354 ms. -/
  | delayRange
  /-- 6: ADD_FRAME with PIXLEN ≠ WIDTH·HEIGHT·4. -/
  | bufferLength
  /-- 7: a frame above MAX_FRAME_PIXELS, or an append past OUT_CAPACITY. -/
  | capacity
deriving DecidableEq, Repr

/-- The fields of STATUS (10_state.md R25). Bit 3 is hardwired 0 and has no storage; Status.word in
Sys2Proof/Machine/Flags.lean is the register's 8-bit view. -/
structure Status where
  /-- CFG, bit 0: the block has been configured. -/
  cfg : Bool
  /-- HDR, bit 1: the container header has been written. -/
  hdr : Bool
  /-- FIN, bit 2: the trailer has been written. -/
  fin : Bool
  /-- FAULT, bits 7:4. -/
  fault : FaultCode
deriving DecidableEq, Repr

/-- A byte memory, one cell per byte, in rising order of address. The two memories of 20_memory.md R50, PIX and OUT, are byte
arrays at offsets 0, 1, 2, …; an offset with no cell holds no byte (assumption log 10). -/
abbrev Memory := List Host.Cell

/-- A command as the host issues it: the command word and the pixel buffer presented with it (20_memory.md R51;
70_reset_and_hazards.md R231). Only ADD_FRAME reads the buffer. -/
structure Command where
  word : CmdWord
  pixels : List Byte
deriving DecidableEq, Repr

/-- What the host can do to the block (R231). -/
inductive HostEvent where
  /-- It issues a command. -/
  | command (c : Command)
  /-- It asserts RESET between commands (R220). -/
  | reset
  /-- It asserts RESET while the command runs, which abandons that command (R220). -/
  | resetDuring (c : Command)
deriving DecidableEq, Repr

/-- The media-type tag of GET_BLOB (44_container_commands.md R189): there is one, "image/gif". -/
inductive MediaType where
  | imageGif
deriving DecidableEq, Repr

/-- What a response carries beside the response word (30_encoding.md R77). -/
inductive Payload where
  /-- Nothing: CONFIGURE, ADD_FRAME, FINISH, and every command that faults. -/
  | empty
  /-- READ_OUTPUT: the byte sequence OutRead(). -/
  | bytes (bs : List Byte)
  /-- GET_BLOB: the byte sequence OutRead() and the media-type tag. -/
  | blob (bs : List Byte) (mediaType : MediaType)
deriving DecidableEq, Repr

/-- A response (R77): the 8-bit word resp and its payload. -/
structure Response where
  resp : BitVec 8
  payload : Payload
deriving DecidableEq, Repr

/-- The block and its port. -/
structure State where
  /-- WIDTH (10_state.md R22). -/
  width : BitVec 16
  /-- HEIGHT (R23). -/
  height : BitVec 16
  /-- DELAY_MS (R24). -/
  delayMs : BitVec 23
  /-- STATUS (R25). -/
  status : Status
  /-- OUT, whose length is OUT_LEN (R31; 20_memory.md R52). -/
  out : Memory
  /-- The per-frame working state (R32 to R37). -/
  work : Work
  /-- PIX, whose length is PIXLEN: the host's pixel buffer while a command runs (20_memory.md R51). -/
  pix : Memory
  /-- What the host will do, next event first (70_reset_and_hazards.md R230, R231). -/
  inputs : List HostEvent
  /-- The responses given so far, oldest first (30_encoding.md R77). -/
  responses : List Response
  /-- The implementation parameters, fixed for a run (00_scope.md R9; R182). -/
  params : Config.Params
  /-- The MODEL's own counter, which numbers the free values of Sys2Proof/Config.lean. -/
  freeCount : Nat
deriving DecidableEq, Repr

/-- The reasons the machine itself stops. There is none: every fault of the spec is taken as a next state with
STATUS.FAULT written (60_exceptions.md R202), and a FAULTED block goes on ignoring commands (R205). -/
inductive Fault where
deriving DecidableEq, Repr

/-- The reasons a step has no meaning. -/
inductive Refusal where
  /-- Raised by exec for an instruction with no meaning yet. No arm of this model answers it. SAFE: nothing is claimed. -/
  | notModelled (mnemonic : String)
  /-- Raised by ADD_FRAME for a frame of no pixels, where LZW_COMPRESS "is not defined" (43_lzw_compressor.md R161; 93 U14:
  refuse). Only a state that no run reaches gets there: CONFIGURE faults a zero dimension. SAFE: the model stops where the
  spec gives no meaning. -/
  | emptyFrame
deriving DecidableEq, Repr

/-- The working state at reset. The spec leaves it unspecified (R37, R39); the model names it (DESIGN CHOICE, assumption
log 5). No rule reads it. -/
def Work.empty : Work :=
  { pal := [], idx := [],
    comp := { dict := [], codeSize := 0, nextCode := 0, cur := [] },
    pack := { bitbuf := 0, bitcnt := 0, sb := [] },
    samples := [], buckets := [] }

/-- The state right after reset (10_state.md R39; 70_reset_and_hazards.md R220), with the spec's default parameters (R9), no
host event pending and no response given. -/
def State.reset : State :=
  { width := 0#16, height := 0#16, delayMs := 0#23,
    status := { cfg := false, hdr := false, fin := false, fault := .none },
    out := [], work := Work.empty, pix := [], inputs := [], responses := [],
    params := Config.specDefault, freeCount := 0 }

end Sys2Proof.Machine
end

