-- ==== Sys2Proof/Machine/Flags.lean ====
section
/-! DEFINITION. STATUS: its latches, its 8-bit view, the fault codes, and the lifecycle state (10_state.md R25 to R30). -/

namespace Sys2Proof.Machine

/-- The number of a fault code (60_exceptions.md R200). -/
def FaultCode.code : FaultCode → BitVec 4
  | .none => 0#4
  | .illegalCommand => 1#4
  | .notConfigured => 2#4
  | .afterFinish => 3#4
  | .badDimensions => 4#4
  | .delayRange => 5#4
  | .bufferLength => 6#4
  | .capacity => 7#4

/-- STATUS as a byte (R25): FAULT in bits 7:4, bit 3 hardwired 0, FIN, HDR, CFG in bits 2, 1, 0. -/
def Status.word (st : Status) : BitVec 8 :=
  FaultCode.code st.fault ++ 0#1 ++ BitVec.ofBool st.fin ++ BitVec.ofBool st.hdr ++ BitVec.ofBool st.cfg

/-- STATUS after a CONFIGURE that succeeds (R40; 44_container_commands.md R185): CFG set, HDR and FIN cleared. -/
def Status.configured (st : Status) : Status := { st with cfg := true, hdr := false, fin := false }

/-- STATUS.HDR <- v (R27). -/
def Status.withHdr (st : Status) (v : Bool) : Status := { st with hdr := v }

/-- STATUS.FIN <- 1 (R28). -/
def Status.finished (st : Status) : Status := { st with fin := true }

/-- STATUS.FAULT <- f (R29; 60_exceptions.md R202). -/
def Status.withFault (st : Status) (f : FaultCode) : Status := { st with fault := f }

/-- The lifecycle states (R30). -/
inductive Lifecycle where
  | unconfigured
  | empty
  | opened
  | finished
  | faulted
deriving DecidableEq, Repr

/-- The lifecycle state as a function of STATUS (R30). -/
def Status.lifecycle (st : Status) : Lifecycle :=
  if st.fault ≠ .none then .faulted
  else if st.cfg = false then .unconfigured
  else if st.fin = true then .finished
  else if st.hdr = true then .opened
  else .empty

end Sys2Proof.Machine
end

