-- ==== Sys2Proof/Machine/Operands.lean ====
section
/-! DEFINITION. The fixed constants (00_scope.md R8), the block's integer arithmetic (R13), the 16-bit field (20_memory.md R57),
and CONFIGURE's two delay operand forms (44_container_commands.md R185). -/

namespace Sys2Proof.Machine

/-- SAMPLE_LIMIT (R8). -/
def sampleLimit : Nat := 10000

/-- MAX_COLORS (R8). -/
def maxColors : Nat := 256

/-- MIN_TABLE_BITS (R8). -/
def minTableBits : Nat := 2

/-- MAX_TABLE_BITS (R8). -/
def maxTableBits : Nat := 8

/-- LZW_MAX_CODES (R8). -/
def lzwMaxCodes : Nat := 4096

/-- LZW_MAX_BITS (R8). -/
def lzwMaxBits : Nat := 12

/-- SUBBLOCK_MAX (R8). -/
def subblockMax : Nat := 255

/-- DEFAULT_DELAY_MS (R8). -/
def defaultDelayMs : Nat := 100

/-- TRAILER (R8). -/
def trailerByte : Byte := 0x3B#8

/-- ceil_div(a, b) (R13), for b > 0. -/
def ceilDiv (a b : Nat) : Nat := (a + b - 1) / b

/-- round_half_up(a, b) (R13), for b > 0: a quotient halfway between two integers goes to the larger one. -/
def roundHalfUp (a b : Nat) : Nat := (2 * a + b) / (2 * b)

/-- le16(v) (20_memory.md R57): low byte first; every call site has v ≤ 65535. -/
def le16 (v : Nat) : List Byte := [BitVec.ofNat 8 (v &&& 0xFF), BitVec.ofNat 8 ((v >>> 8) &&& 0xFF)]

/-- The effective delay of CONFIGURE with the option absent, DP = 0 (R185). -/
def effectiveDelayAbsent : Nat := defaultDelayMs

/-- The effective delay of CONFIGURE with the option present, DP = 1 (R185; the parameter of R9). -/
def effectiveDelayGiven (p : Config.Params) (d : BitVec 23) : Nat :=
  if d.toNat = 0 ∧ p.zeroDelayMeansDefault = true then defaultDelayMs else d.toNat

/-- DELAY_CS (42_gif_frame_serializer.md R136): the delay in centiseconds. -/
def delayCs (delayMs : Nat) : Nat := roundHalfUp delayMs 10

/-- Whether n exceeds a limit of the configuration (00_scope.md R9), where none is an unbounded one. -/
def exceeds (n : Nat) : Option Nat → Bool
  | none => false
  | some m => decide (m < n)

end Sys2Proof.Machine
end

