-- ==== Sys2Proof/Machine/Ops.lean ====
section
/-! DEFINITION. The named operations over the two memories and the registers: PixRead, OutAppend, OutRead (20_memory.md R51 to
R54), accepting and completing a command (44_container_commands.md R180), fault entry (60_exceptions.md R202, R204) and RESET
(70_reset_and_hazards.md R220). -/

namespace Sys2Proof.Machine

/-- What a command or a step answers. -/
abbrev Result := Host.Outcome State Fault Refusal

/-! ### Byte memories -/

/-- Cells holding bs at consecutive addresses from base on. -/
def Memory.cellsFrom (base : Nat) : List Byte → Memory
  | [] => []
  | b :: bs => (base, b) :: Memory.cellsFrom (base + 1) bs

/-- The memory that holds bs from offset 0 on. -/
def Memory.ofBytes (bs : List Byte) : Memory := Memory.cellsFrom 0 bs

/-- The bytes of a memory in address order. -/
def Memory.bytes (m : Memory) : List Byte := m.map Prod.snd

/-- The byte at an address; an address with no cell holds no byte (assumption log 10). -/
def Memory.read (m : Memory) (a : Nat) : Option Byte := m.lookup a

/-- bs placed after the last byte. -/
def Memory.append (m : Memory) (bs : List Byte) : Memory := m ++ Memory.cellsFrom m.length bs

/-- The canonical form: the cells' addresses are 0, 1, 2, …, in this order. -/
def Memory.wf (m : Memory) : Bool := decide (m.map Prod.fst = List.range m.length)

/-! ### Reads of the state -/

/-- OUT_LEN (10_state.md R31). -/
def State.outLen (s : State) : Nat := s.out.length

/-- OutRead() (20_memory.md R54): a snapshot of OUT[0..OUT_LEN). -/
def State.outRead (s : State) : List Byte := Memory.bytes s.out

/-- PIXLEN (R51). -/
def State.pixLen (s : State) : Nat := s.pix.length

/-- PixRead(i) (R51), defined for 0 ≤ i < PIXLEN. -/
def State.pixRead (s : State) (i : Nat) : Option Byte := Memory.read s.pix i

/-- The bytes PixRead(0), PixRead(1), …, PixRead(PIXLEN − 1). -/
def State.pixBytes (s : State) : List Byte := Memory.bytes s.pix

/-- P = WIDTH·HEIGHT (41_palette_quantizer.md R100). -/
def State.pixelCount (s : State) : Nat := s.width.toNat * s.height.toNat

/-- n more bytes fit in OUT (R53): OUT_CAPACITY is unbounded, or OUT_LEN + n does not exceed it. -/
def State.fits (s : State) (n : Nat) : Bool :=
  match s.params.outCapacity with
  | none => true
  | some c => decide (s.outLen + n ≤ c)

/-! ### Updates of the state -/

/-- WIDTH, HEIGHT and DELAY_MS written (R185). -/
def State.setConfig (s : State) (w h : BitVec 16) (d : BitVec 23) : State := { s with width := w, height := h, delayMs := d }

/-- STATUS written. -/
def State.setStatus (s : State) (st : Status) : State := { s with status := st }

/-- OUT replaced as a whole: emptied by CONFIGURE, left free by a CAPACITY fault. -/
def State.setOut (s : State) (m : Memory) : State := { s with out := m }

/-- bs appended to OUT: the write of OutAppend (R53). -/
def State.appendOut (s : State) (bs : List Byte) : State := { s with out := Memory.append s.out bs }

/-- The working state written. -/
def State.setWork (s : State) (w : Work) : State := { s with work := w }

/-- The working state discarded (10_state.md R37): its value is then free (assumption log 6). -/
def State.discardWork (s : State) : State := { s with work := Config.freeWork s.freeCount, freeCount := s.freeCount + 1 }

/-- One response given (30_encoding.md R77). -/
def State.respond (s : State) (r : Response) : State := { s with responses := s.responses ++ [r] }

/-- A command taken from the host with its pixel buffer, rest still to come (R51, R70). -/
def State.present (s : State) (pixels : List Byte) (rest : List HostEvent) : State :=
  { s with pix := Memory.ofBytes pixels, inputs := rest }

/-- The pixel buffer given back: "the block holds no copy of PIX" (R51, R67). -/
def State.releasePix (s : State) : State := { s with pix := [] }

/-! ### Commands, faults, reset -/

/-- The response of a command that completed: resp = 0x00 and its payload (R77, R180). -/
def okResponse (p : Payload) : Response := { resp := 0x00#8, payload := p }

/-- The response of a command that raised f: resp[3:0] is the code, resp[7:4] is 0 (R77; 60_exceptions.md R202). -/
def faultResponse (f : FaultCode) : Response := { resp := (FaultCode.code f).setWidth 8, payload := .empty }

/-- A command ends without a fault. -/
def complete (p : Payload) (s : State) : Result := .next (s.respond (okResponse p))

/-- Fault entry (60_exceptions.md R202): STATUS.FAULT is written, the command ends, the response carries the code, and
everything else is as it was. -/
def raiseFault (f : FaultCode) (s : State) : Result := .next ((s.setStatus (s.status.withFault f)).respond (faultResponse f))

/-- Fault entry for CAPACITY raised by an append (R204): OUT, OUT_LEN and STATUS.HDR are free afterwards, and so is the
working state (10_state.md R37); the other registers are unchanged. -/
def raiseAppendCapacity (s : State) : Result :=
  raiseFault .capacity
    ((s.setOut (Memory.ofBytes (Config.freeOut s.freeCount))).setStatus (s.status.withHdr (Config.freeHdr s.freeCount))).discardWork

/-- OutAppend(bs) (20_memory.md R53), and then the rest k of the command. -/
def appendThen (bs : List Byte) (s : State) (k : State → Result) : Result :=
  if s.fits bs.length then k (s.appendOut bs) else raiseAppendCapacity s

/-- A command's rule runs only if STATUS.FAULT = 0; otherwise the command is not accepted, no state changes and no response is
given (44_container_commands.md R180; 60_exceptions.md R205). -/
def accept (s : State) (k : State → Result) : Result :=
  if s.status.fault = .none then k s else .next s

/-- An illegal word (R180; 30_encoding.md R75): it raises ILLEGAL_COMMAND and changes nothing but STATUS.FAULT. -/
def illegalWord (s : State) : Result := accept s (raiseFault .illegalCommand)

/-- RESET (70_reset_and_hazards.md R220): every register at its reset value (10_state.md R39), OUT empty, the working state
unspecified (free). The parameters are fixed for a run (R182), the host's later events and the responses already given are
the host's. -/
def State.resetSignal (s : State) : State :=
  { State.reset with
    work := Config.freeWork s.freeCount
    inputs := s.inputs
    responses := s.responses
    params := s.params
    freeCount := s.freeCount + 1 }

/-- The outcome with its next state, if there is one, changed by f. -/
def afterNext (f : State → State) : Result → Result
  | .next s => .next (f s)
  | .fault r => .fault r
  | .refused r => .refused r

end Sys2Proof.Machine
end

