-- ==== Sys2Proof/Machine/Quantizer.lean ====
section
/-! DEFINITION. palette_quantizer (41_palette_quantizer.md R100 to R110). -/

namespace Sys2Proof.Machine

/-- The colours of the pixels, in pixel order: bytes 4p, 4p+1, 4p+2 of PIX are R, G, B of pixel p, and byte 4p+3 (A) is not
used (20_memory.md R55). -/
def pixels : List Byte → List Rgb
  | r :: g :: b :: _ :: rest => { r := r, g := g, b := b } :: pixels rest
  | _ => []

/-- The sampling step of R100. -/
def sampleStep (p : Nat) : Nat := if p > sampleLimit then ceilDiv p sampleLimit else 1

/-- Every step-th element, after skipping the first skip elements. -/
def everyNth {α : Type} (step : Nat) : Nat → List α → List α
  | _, [] => []
  | 0, x :: xs => x :: everyNth step (step - 1) xs
  | skip + 1, _ :: xs => everyNth step skip xs

/-- SAMPLE (R100): pixels 0, step, 2·step, … below P. -/
def sample (p : Nat) (px : List Rgb) : List Rgb := everyNth (sampleStep p) 0 px

/-- INIT_BUCKETS (R101). -/
def initBuckets (samples : List Rgb) : List Bucket := [samples]

/-- s[c], the value of a channel (R102). -/
def Rgb.channel (s : Rgb) : Channel → Nat
  | .red => s.r.toNat
  | .green => s.g.toNat
  | .blue => s.b.toNat

/-- RANGE(b, c) (R102), for a bucket with a member. -/
def bucketRange (b : Bucket) (c : Channel) : Nat :=
  (b.map (Rgb.channel · c)).foldl max 0 - (b.map (Rgb.channel · c)).foldl min 255

/-- The (range, slot, channel) triples SELECT compares, in its order: slots in order from slot j on, and R, G, B within a slot.
Only buckets with two members or more are eligible (R103). -/
def splitCandidates : Nat → List Bucket → List (Nat × Nat × Channel)
  | _, [] => []
  | j, b :: bs =>
    (if b.length ≥ 2 then
      [(bucketRange b .red, j, .red), (bucketRange b .green, j, .green), (bucketRange b .blue, j, .blue)]
     else []) ++ splitCandidates (j + 1) bs

/-- The scan of SELECT (R103): a candidate replaces the best so far only if its range is strictly larger. -/
def widest : Nat → Option (Nat × Channel) → List (Nat × Nat × Channel) → Option (Nat × Channel)
  | _, found, [] => found
  | best, found, (r, j, c) :: rest => if r > best then widest r (some (j, c)) rest else widest best found rest

/-- SELECT (R103): the slot and the channel to split by, or none. -/
def selectSplit (bs : List Bucket) : Option (Nat × Channel) := widest 0 none (splitCandidates 0 bs)

/-- stable_sort_ascending(b, key = s[c]) (R105): the members of each key value, in their own order, key values ascending from
0 to 255. -/
def sortByChannel (b : Bucket) (c : Channel) : Bucket :=
  (List.range 256).flatMap fun v => b.filter fun s => Nat.beq (s.channel c) v

/-- SPLIT(bb, bc) (R105): the lower half keeps the slot, the upper half is appended. -/
def splitBucket (bs : List Bucket) (bb : Nat) (bc : Channel) : List Bucket :=
  let srt := sortByChannel (bs.getD bb []) bc
  let mid := srt.length / 2
  bs.set bb (srt.take mid) ++ [srt.drop mid]

/-- MEDIAN_CUT_LOOP (R104), at most n times round. -/
def medianCut : Nat → List Bucket → List Bucket
  | 0, bs => bs
  | n + 1, bs =>
    if bs.length < maxColors then
      match selectSplit bs with
      | none => bs
      | some (bb, bc) => medianCut n (splitBucket bs bb bc)
    else bs

/-- MEDIAN_CUT_LOOP (R104). "The loop runs at most 255 times", since each split adds a bucket and 256 buckets end it. -/
def medianCutLoop (bs : List Bucket) : List Bucket := medianCut 255 bs

/-- The sum of one channel over a bucket (R106). -/
def channelSum (b : Bucket) (c : Channel) : Nat := (b.map (Rgb.channel · c)).sum

/-- MEAN (R106): the rounded mean of each channel; an empty bucket yields black. -/
def mean (b : Bucket) : Rgb :=
  if b.length = 0 then { r := 0#8, g := 0#8, b := 0#8 }
  else
    { r := BitVec.ofNat 8 (roundHalfUp (channelSum b .red) b.length)
      g := BitVec.ofNat 8 (roundHalfUp (channelSum b .green) b.length)
      b := BitVec.ofNat 8 (roundHalfUp (channelSum b .blue) b.length) }

/-- (x − y)² over the naturals: one of the two truncated differences is 0. -/
def sqDiff (x y : Nat) : Nat := ((x - y) + (y - x)) * ((x - y) + (y - x))

/-- The squared Euclidean distance of two colours (R108; 00_scope.md R13). -/
def distance (a b : Rgb) : Nat :=
  sqDiff a.r.toNat b.r.toNat + sqDiff a.g.toNat b.g.toNat + sqDiff a.b.toNat b.b.toNat

/-- The inner loop of MAP (R108), from entry j on: best is (bestD, bestJ), none before the first entry. -/
def nearestFrom (px : Rgb) : Nat → Option (Nat × Nat) → List Rgb → Nat
  | _, none, [] => 0
  | _, some (_, bestJ), [] => bestJ
  | j, none, q :: qs => nearestFrom px (j + 1) (some (distance px q, j)) qs
  | j, some (bestD, bestJ), q :: qs =>
    if distance px q < bestD then nearestFrom px (j + 1) (some (distance px q, j)) qs
    else nearestFrom px (j + 1) (some (bestD, bestJ)) qs

/-- The palette index of a pixel (R108): the lowest index at the least distance. -/
def nearest (pal : List Rgb) (px : Rgb) : Nat := nearestFrom px 0 none pal

/-- MAP (R108): one 8-bit index for every pixel. -/
def mapPixels (pal : List Rgb) (px : List Rgb) : List Byte := px.map fun q => BitVec.ofNat 8 (nearest pal q)

/-- The palette of a non-empty list of samples (R110): the buckets' means in slot order. -/
def paletteOf (samples : List Rgb) : List Rgb := (medianCutLoop (initBuckets samples)).map mean

/-- QUANTIZE (R110) for P pixels: SAMPLES, BUCKETS, PAL and IDX written in the working state. -/
def quantize (p : Nat) (px : List Rgb) (w : Work) : Work :=
  let samples := sample p px
  if samples.length = 0 then
    -- ZERO_SAMPLES (R107)
    { w with samples := samples, pal := [{ r := 0#8, g := 0#8, b := 0#8 }], idx := [] }
  else
    { w with
      samples := samples
      buckets := medianCutLoop (initBuckets samples)
      pal := paletteOf samples
      idx := mapPixels (paletteOf samples) px }

end Sys2Proof.Machine
end

