-- ==== Sys2Proof/Machine/Serializer.lean ====
section
/-! DEFINITION. gif_frame_serializer (42_gif_frame_serializer.md R130 to R138): the bytes each operation appends, in order. -/

namespace Sys2Proof.Machine

/-- The signature bytes (R130, offsets 0 to 5). -/
def signature : List Byte := [0x47#8, 0x49#8, 0x46#8, 0x38#8, 0x39#8, 0x61#8]

/-- "NETSCAPE2.0" in ASCII (R132; 00_scope.md R11). -/
def netscape : List Byte :=
  [0x4E#8, 0x45#8, 0x54#8, 0x53#8, 0x43#8, 0x41#8, 0x50#8, 0x45#8, 0x32#8, 0x2E#8, 0x30#8]

/-- EMIT_APPEXT (R132): the looping application extension, loop count 0. -/
def appExt : List Byte :=
  [0x21#8, 0xFF#8, 0x0B#8] ++ netscape ++ [0x03#8, 0x01#8] ++ le16 0 ++ [0x00#8]

/-- The logical screen descriptor (R130, offsets 6 to 12). -/
def screenDescriptor (w h : Nat) : List Byte := le16 w ++ le16 h ++ [0x00#8, 0x00#8, 0x00#8]

/-- EMIT_HEADER (R130): the one-time header. -/
def headerBytes (w h : Nat) : List Byte := signature ++ screenDescriptor w h ++ appExt

/-- PALETTE_BITS (R131), for 1 ≤ n ≤ 256. -/
def paletteBits (n : Nat) : Nat :=
  if n ≤ 4 then 2
  else if n ≤ 8 then 3
  else if n ≤ 16 then 4
  else if n ≤ 32 then 5
  else if n ≤ 64 then 6
  else if n ≤ 128 then 7
  else 8

/-- EMIT_GCE (R133): the graphic control extension. -/
def graphicControl (cs : Nat) : List Byte := [0x21#8, 0xF9#8, 0x04#8, 0x00#8] ++ le16 cs ++ [0x00#8, 0x00#8]

/-- EMIT_ID (R134): the image descriptor. -/
def imageDescriptor (w h bits : Nat) : List Byte :=
  [0x2C#8] ++ le16 0 ++ le16 0 ++ le16 w ++ le16 h ++ [BitVec.ofNat 8 (0x80 ||| (bits - 1))]

/-- The three bytes of a colour-table entry, in the order R, G, B (20_memory.md R59). -/
def colorEntry (c : Rgb) : List Byte := [c.r, c.g, c.b]

/-- Entry j of the colour table (R135): the palette's colour, or black past its end. -/
def tableEntry (pal : List Rgb) (j : Nat) : List Byte :=
  match pal[j]? with
  | some c => colorEntry c
  | none => [0x00#8, 0x00#8, 0x00#8]

/-- EMIT_LCT (R135): the local colour table, padded with black to 2^bits entries. -/
def colorTable (pal : List Rgb) (bits : Nat) : List Byte := (List.range (2 ^ bits)).flatMap (tableEntry pal)

/-- EMIT_FRAME_HEAD (R137): the blocks before a frame's LZW data. -/
def frameHead (delayMs w h : Nat) (pal : List Rgb) : List Byte :=
  graphicControl (delayCs delayMs) ++ imageDescriptor w h (paletteBits pal.length) ++ colorTable pal (paletteBits pal.length)

/-- EMIT_TRAILER (R138). -/
def trailer : List Byte := [trailerByte]

end Sys2Proof.Machine
end

