-- ==== Sys2Proof/Machine/Compressor.lean ====
section
/-! DEFINITION. lzw_compressor (43_lzw_compressor.md R150 to R161). The compressor appends to OUT only through PUT_BYTE, FLUSH and
the first byte of LZW_COMPRESS; those bytes gather, in order, in Lzw.appended. -/

namespace Sys2Proof.Machine

/-- mcs, the minimum code size (R150). -/
def minCodeSize (bits : Nat) : Nat := max 2 bits

/-- clear = 2^mcs (R150). -/
def clearCode (mcs : Nat) : Nat := 2 ^ mcs

/-- eoi = clear + 1 (R150). -/
def eoiCode (mcs : Nat) : Nat := clearCode mcs + 1

/-- seq ∈ keys(DICT) (R151). -/
def dictHas (d : Dict) (seq : List Byte) : Bool := (d.lookup seq).isSome

/-- DICT[seq] (R151), for a key seq. -/
def dictCode (d : Dict) (seq : List Byte) : Nat := (d.lookup seq).getD 0

/-- DICT[seq] <- code, for a seq that is no key (R151). -/
def dictInsert (d : Dict) (seq : List Byte) (code : Nat) : Dict := (seq, code) :: d

/-- The literal entries [v] -> v for 0 ≤ v < clear (R151, R152). -/
def literalDict (mcs : Nat) : Dict := (List.range (clearCode mcs)).map fun v => ([BitVec.ofNat 8 v], v)

/-- DICT_RESET (R152): literals only, codeSize = mcs + 1, nextCode = eoi + 1. -/
def dictReset (mcs : Nat) (c : Compressor) : Compressor :=
  { c with dict := literalDict mcs, codeSize := mcs + 1, nextCode := eoiCode mcs + 1 }

/-- The code width after an insertion that made nextCode next (R156). -/
def widen (next codeSize : Nat) : Nat := if next > 2 ^ codeSize ∧ codeSize < lzwMaxBits then codeSize + 1 else codeSize

/-- The insertion of MISMATCH (R156): DICT[cur ++ [k]] <- nextCode, nextCode advances, and the codes may widen. -/
def insertEntry (k : Byte) (c : Compressor) : Compressor :=
  { c with
    dict := dictInsert c.dict (c.cur ++ [k]) c.nextCode
    nextCode := c.nextCode + 1
    codeSize := widen (c.nextCode + 1) c.codeSize }

/-- cur <- seq. -/
def setCur (seq : List Byte) (c : Compressor) : Compressor := { c with cur := seq }

/-- The compressor's state changed by f while LZW_COMPRESS runs. -/
def onComp (f : Compressor → Compressor) (z : Lzw) : Lzw := { z with comp := f z.comp }

/-- A sub-block: its length byte and its data (R154, R159). -/
def subBlock (sb : List Byte) : List Byte := BitVec.ofNat 8 sb.length :: sb

/-- PUT_BYTE(b) (R154): a full sub-block is written as soon as its 255th byte arrives. -/
def putByte (b : Byte) (z : Lzw) : Lzw :=
  let sb := z.pack.sb ++ [b]
  if sb.length = subblockMax then
    { z with pack := { z.pack with sb := [] }, appended := z.appended ++ subBlock sb }
  else { z with pack := { z.pack with sb := sb } }

/-- One round of EMIT_CODE's loop (R153): the low byte goes out, and eight pending bits are consumed. -/
def emitLowByte (z : Lzw) : Lzw :=
  let z' := putByte (BitVec.ofNat 8 (z.pack.bitbuf &&& 0xFF)) z
  { z' with pack := { z'.pack with bitbuf := z'.pack.bitbuf >>> 8, bitcnt := z'.pack.bitcnt - 8 } }

/-- n rounds of EMIT_CODE's loop. -/
def emitBytes : Nat → Lzw → Lzw
  | 0, z => z
  | n + 1, z => emitBytes n (emitLowByte z)

/-- EMIT_CODE(c) (R153). The loop "while BITCNT >= 8" goes round BITCNT div 8 times. -/
def emitCode (c : Nat) (z : Lzw) : Lzw :=
  let pack := { z.pack with bitbuf := z.pack.bitbuf ||| (c <<< z.pack.bitcnt), bitcnt := z.pack.bitcnt + z.comp.codeSize }
  emitBytes (pack.bitcnt / 8) { z with pack := pack }

/-- TABLE_FULL (R157): a clear code at the current width, then a fresh dictionary. -/
def tableFull (mcs : Nat) (z : Lzw) : Lzw := onComp (dictReset mcs) (emitCode (clearCode mcs) z)

/-- MISMATCH(k) (R156): the longest match's code, then an insertion or TABLE_FULL, and matching restarts from k. -/
def mismatch (mcs : Nat) (k : Byte) (z : Lzw) : Lzw :=
  let z' := emitCode (dictCode z.comp.dict z.comp.cur) z
  onComp (setCur [k]) (if z'.comp.nextCode < lzwMaxCodes then onComp (insertEntry k) z' else tableFull mcs z')

/-- MATCH (R155), or MISMATCH (R156), on the next index k. -/
def matchStep (mcs : Nat) (z : Lzw) (k : Byte) : Lzw :=
  if dictHas z.comp.dict (z.comp.cur ++ [k]) then onComp (setCur (z.comp.cur ++ [k])) z else mismatch mcs k z

/-- TERMINATE (R158). -/
def terminate (mcs : Nat) (z : Lzw) : Lzw := emitCode (eoiCode mcs) (emitCode (dictCode z.comp.dict z.comp.cur) z)

/-- FLUSH's partial byte (R159). -/
def flushBits (z : Lzw) : Lzw :=
  if z.pack.bitcnt > 0 then
    let z' := putByte (BitVec.ofNat 8 (z.pack.bitbuf &&& 0xFF)) z
    { z' with pack := { z'.pack with bitbuf := 0, bitcnt := 0 } }
  else z

/-- FLUSH (R159): the partial byte, the last short sub-block, and the block terminator. -/
def flush (z : Lzw) : Lzw :=
  let z' := flushBits z
  if z'.pack.sb.length > 0 then
    { z' with pack := { z'.pack with sb := [] }, appended := z'.appended ++ subBlock z'.pack.sb ++ [0x00#8] }
  else { z' with appended := z'.appended ++ [0x00#8] }

/-- The start of LZW_COMPRESS (R161): the minimum-code-size byte, an empty packer, a fresh dictionary and a first clear code;
cur is the first index. -/
def lzwStart (mcs : Nat) (first : Byte) (c : Compressor) : Lzw :=
  onComp (setCur [first])
    (emitCode (clearCode mcs)
      { comp := dictReset mcs c, pack := { bitbuf := 0, bitcnt := 0, sb := [] }, appended := [BitVec.ofNat 8 mcs] })

/-- LZW_COMPRESS (R161) on the indices first :: rest; c is the compressor state found, all of it overwritten. -/
def lzwCompress (bits : Nat) (first : Byte) (rest : List Byte) (c : Compressor) : Lzw :=
  let mcs := minCodeSize bits
  flush (terminate mcs (rest.foldl (matchStep mcs) (lzwStart mcs first c)))

end Sys2Proof.Machine
end

