-- ==== Sys2Proof/Machine/Container.lean ====
section
/-! DEFINITION. The container commands (44_container_commands.md R185 to R189): the meaning of each instruction. -/

namespace Sys2Proof.Machine

/-- The checks on the command word's operands and the writes of CONFIGURE (R185), for the effective delay eff. -/
def configureWith (w h : BitVec 16) (eff : Nat) (s : State) : Result :=
  if w = 0#16 ∨ h = 0#16 then raiseFault .badDimensions s
  else if roundHalfUp eff 10 > 65535 then raiseFault .delayRange s
  else if exceeds (w.toNat * h.toNat) s.params.maxFramePixels = true then raiseFault .capacity s
  else
    complete .empty
      (((s.setConfig w h (BitVec.ofNat 23 eff)).setOut []).setStatus s.status.configured)

/-- The check STATUS.CFG = 1 of every command but CONFIGURE (60_exceptions.md R201), and then the rest k. -/
def requireConfigured (s : State) (k : State → Result) : Result :=
  if s.status.cfg = false then raiseFault .notConfigured s else k s

/-- The check STATUS.FIN = 0 of ADD_FRAME and FINISH (R201), and then the rest k. -/
def requireOpen (s : State) (k : State → Result) : Result :=
  if s.status.fin = true then raiseFault .afterFinish s else k s

/-- "if STATUS.HDR = 0: EMIT_HEADER(); STATUS.HDR <- 1" (R186, R187), and then the rest k. -/
def headerThen (s : State) (k : State → Result) : Result :=
  if s.status.hdr = true then k s
  else
    appendThen (headerBytes s.width.toNat s.height.toNat) s fun s => k (s.setStatus (s.status.withHdr true))

/-- QUANTIZE (41_palette_quantizer.md R110) on the state's PIX and working state. -/
def quantizeFrame (s : State) : State := s.setWork (quantize s.pixelCount (pixels s.pixBytes) s.work)

/-- EMIT_FRAME_HEAD (42_gif_frame_serializer.md R137), and then the rest k. -/
def frameHeadThen (s : State) (k : State → Result) : Result :=
  appendThen (frameHead s.delayMs.toNat s.width.toNat s.height.toNat s.work.pal) s k

/-- LZW_COMPRESS (43_lzw_compressor.md R161) on the state's IDX, and then the rest k. It "is not defined" for P = 0, where IDX
is empty: refused (93 U14). -/
def lzwThen (s : State) (k : State → Result) : Result :=
  match s.work.idx with
  | [] => .refused .emptyFrame
  | first :: rest =>
    let z := lzwCompress (paletteBits s.work.pal.length) first rest s.work.comp
    appendThen z.appended (s.setWork { s.work with comp := z.comp, pack := z.pack }) k

/-- CONFIGURE with DP = 0 (R185). -/
def execConfigureDefault (w h : BitVec 16) (s : State) : Result :=
  accept s fun s => configureWith w h effectiveDelayAbsent s

/-- CONFIGURE with DP = 1 (R185). -/
def execConfigureDelay (w h : BitVec 16) (d : BitVec 23) (s : State) : Result :=
  accept s fun s => configureWith w h (effectiveDelayGiven s.params d) s

/-- ADD_FRAME (R186). -/
def execAddFrame (s : State) : Result :=
  accept s fun s =>
    requireConfigured s fun s =>
      requireOpen s fun s =>
        if s.pixLen ≠ s.pixelCount * 4 then raiseFault .bufferLength s
        else
          headerThen s fun s =>
            frameHeadThen (quantizeFrame s) fun s =>
              lzwThen s fun s => complete .empty s.discardWork

/-- FINISH (R187). -/
def execFinish (s : State) : Result :=
  accept s fun s =>
    requireConfigured s fun s =>
      requireOpen s fun s =>
        headerThen s fun s =>
          appendThen trailer s fun s => complete .empty (s.setStatus s.status.finished)

/-- READ_OUTPUT (R188). -/
def execReadOutput (s : State) : Result :=
  accept s fun s => requireConfigured s fun s => complete (.bytes s.outRead) s

/-- GET_BLOB (R189): the bytes of READ_OUTPUT, tagged "image/gif". -/
def execGetBlob (s : State) : Result :=
  accept s fun s => requireConfigured s fun s => complete (.blob s.outRead .imageGif) s

end Sys2Proof.Machine
end

