-- ==== Sys2Proof/Machine/Dispatch.lean ====
section
/-! DEFINITION. exec: one arm per command. -/

namespace Sys2Proof.Machine

def exec (i : Instr) (s : State) : Host.Outcome State Fault Refusal :=
  match i with
  | .configureDefault w h => Sys2Proof.Machine.execConfigureDefault w h s
  | .configureDelay w h d => Sys2Proof.Machine.execConfigureDelay w h d s
  | .addFrame => Sys2Proof.Machine.execAddFrame s
  | .finish => Sys2Proof.Machine.execFinish s
  | .readOutput => Sys2Proof.Machine.execReadOutput s
  | .getBlob => Sys2Proof.Machine.execGetBlob s

end Sys2Proof.Machine
end

