-- ==== Sys2Proof/Machine/Step.lean ====
section
/-! DEFINITION. One step: the next host event (44_container_commands.md R180; 70_reset_and_hazards.md R220, R230). -/

namespace Sys2Proof.Machine

/-- EXECUTE(cmd) of R180 on a command word: decode it and run it, or raise ILLEGAL_COMMAND. -/
def execute (cmd : CmdWord) (s : State) : Host.Outcome State Fault Refusal :=
  match decode cmd with
  | none => illegalWord s
  | some i => exec i s

/-- One step takes the next host event. A command is executed on the pixel buffer presented with it, and the buffer is given
back (20_memory.md R67). RESET gives the reset state, and so does a RESET asserted while a command runs, which abandons it
(R220). With no event pending the block is idle and holds all its state (60_exceptions.md R212). -/
def step (s : State) : Host.Outcome State Fault Refusal :=
  match s.inputs with
  | [] => .next s
  | .command c :: rest => afterNext State.releasePix (execute c.word (s.present c.pixels rest))
  | .reset :: rest => .next (s.present [] rest).resetSignal
  | .resetDuring _ :: rest => .next (s.present [] rest).resetSignal

/-- s with the command word whose bits are w offered next, presented with the pixel buffer s holds. -/
def State.withFetchWord (s : State) (nbits w : Nat) : State :=
  { s with inputs := .command { word := BitVec.ofNat 64 (w % 2 ^ nbits), pixels := s.pixBytes } :: s.inputs }

end Sys2Proof.Machine
end

