-- ==== Sys2Proof/Safety.lean ====
section
/-! DEFINITION. What the statements are about: the end of a run (70_reset_and_hazards.md R230), the form of the output stream
(30_encoding.md R81, R82), the legal states (10_state.md R22 to R31), the bytes of one frame, and the compressor's code stream
on its own, without the packer (43_lzw_compressor.md). -/

namespace Sys2Proof.Machine

/-! ### The end of a run -/

/-- A run that completes ends in such a state (R230); its observation is State.outRead. -/
def State.Completed (s : State) : Prop := s.status.fault = .none ∧ s.status.fin = true

/-- A run that ends in such a state is faulted (R230). -/
def State.Faulted (s : State) : Prop := s.status.fault ≠ .none

/-! ### The output stream -/

/-- An LZW block with minimum code size mcs (R82; 43_lzw_compressor.md R160): mcs, one or more sub-blocks of 1 to 255 data
bytes, all but the last of 255, and the terminator. -/
def IsLzwBlock (mcs : Nat) (bs : List Byte) : Prop :=
  ∃ subs : List (List Byte),
    subs ≠ [] ∧ (∀ sb ∈ subs, 1 ≤ sb.length ∧ sb.length ≤ 255) ∧ (∀ sb ∈ subs.dropLast, sb.length = 255) ∧
    bs = BitVec.ofNat 8 mcs :: (subs.flatMap subBlock ++ [0x00#8])

/-- One frame of the stream (R81): graphic control extension, image descriptor, colour table of 2^bits entries, LZW block. -/
def IsFrame (w h : Nat) (bs : List Byte) : Prop :=
  ∃ (cs bits : Nat) (table block : List Byte),
    2 ≤ bits ∧ bits ≤ 8 ∧ table.length = 3 * 2 ^ bits ∧ IsLzwBlock bits block ∧
    bs = graphicControl cs ++ imageDescriptor w h bits ++ table ++ block

/-- A stream with its header written (R81): header, frames, and the trailer if it is finished. -/
def IsStream (w h : Nat) (fin : Bool) (bs : List Byte) : Prop :=
  ∃ frames : List (List Byte),
    (∀ f ∈ frames, IsFrame w h f) ∧ bs = headerBytes w h ++ frames.flatten ++ (if fin then trailer else [])

/-! ### Legal states -/

/-- Both memories are in canonical form. -/
def State.MemoriesWf (s : State) : Prop := Memory.wf s.out = true ∧ Memory.wf s.pix = true

/-- The latches of STATUS: HDR only when configured, FIN only when the header is written (10_state.md R30). -/
def State.LatchesLegal (s : State) : Prop :=
  (s.status.hdr = true → s.status.cfg = true) ∧ (s.status.fin = true → s.status.hdr = true)

/-- The configuration registers: legal values once configured (R22, R23, R24; 44_container_commands.md R185), and the reset
values with an empty OUT before (R39). -/
def State.ConfigLegal (s : State) : Prop :=
  if s.status.cfg = true then
    1 ≤ s.width.toNat ∧ 1 ≤ s.height.toNat ∧ s.delayMs.toNat ≤ 655354 ∧
      (∀ m, s.params.maxFramePixels = some m → s.width.toNat * s.height.toNat ≤ m)
  else s.width = 0#16 ∧ s.height = 0#16 ∧ s.delayMs = 0#23 ∧ s.out = []

/-- OUT holds at most OUT_CAPACITY bytes (R31), unless a CAPACITY fault has left it unspecified. -/
def State.OutBounded (s : State) : Prop :=
  s.status.fault ≠ .capacity → ∀ c, s.params.outCapacity = some c → s.outLen ≤ c

/-- OUT is the prefix of the stream grammar that STATUS says (R81), unless a CAPACITY fault has left it unspecified. -/
def State.StreamLegal (s : State) : Prop :=
  s.status.fault ≠ .capacity →
    if s.status.hdr = true then IsStream s.width.toNat s.height.toNat s.status.fin s.outRead else s.outRead = []

/-- The legal states, but for the stream's form. -/
def State.Inv (s : State) : Prop := s.MemoriesWf ∧ s.LatchesLegal ∧ s.ConfigLegal ∧ s.OutBounded

/-! ### One frame's bytes -/

/-- The LZW block of an index buffer (43_lzw_compressor.md R161); nothing for an empty one. -/
def lzwBlock (bits : Nat) : List Byte → List Byte
  | [] => []
  | first :: rest => (lzwCompress bits first rest Work.empty.comp).appended

/-- The palette and the index buffer of a frame (41_palette_quantizer.md R110). -/
def frameWork (w h : Nat) (pixBytes : List Byte) : Work := quantize (w * h) (pixels pixBytes) Work.empty

/-- What ADD_FRAME appends for a frame after the header (44_container_commands.md R186). -/
def frameBytes (delayMs w h : Nat) (pixBytes : List Byte) : List Byte :=
  frameHead delayMs w h (frameWork w h pixBytes).pal ++
    lzwBlock (paletteBits (frameWork w h pixBytes).pal.length) (frameWork w h pixBytes).idx

/-- The one-time header, or nothing when STATUS.HDR is 1 already (10_state.md R27). -/
def State.pendingHeader (s : State) : List Byte :=
  if s.status.hdr = true then [] else headerBytes s.width.toNat s.height.toNat

/-- What an ADD_FRAME at s appends. -/
def State.addFrameBytes (s : State) : List Byte :=
  s.pendingHeader ++ frameBytes s.delayMs.toNat s.width.toNat s.height.toNat s.pixBytes

/-- What a FINISH at s appends. -/
def State.finishBytes (s : State) : List Byte := s.pendingHeader ++ trailer

/-! ### Faults -/

/-- s after a fault f that changes nothing but STATUS.FAULT (60_exceptions.md R202), with the response that carries it. -/
def State.afterFault (s : State) (f : FaultCode) : State :=
  { s with
    status := { s.status with fault := f }
    responses := s.responses ++ [{ resp := (FaultCode.code f).setWidth 8, payload := .empty }] }

/-- The command is one of the two rows of CONFIGURE. -/
def isConfigure : Instr → Bool
  | .configureDefault _ _ => true
  | .configureDelay _ _ _ => true
  | .addFrame => false
  | .finish => false
  | .readOutput => false
  | .getBlob => false

/-- The width and height of a CONFIGURE. -/
def dimensions : Instr → Option (Nat × Nat)
  | .configureDefault w h => some (w.toNat, h.toNat)
  | .configureDelay w h _ => some (w.toNat, h.toNat)
  | .addFrame => none
  | .finish => none
  | .readOutput => none
  | .getBlob => none

/-- The effective delay of a CONFIGURE (R185); 0 for the other commands. -/
def effectiveDelayOf (p : Config.Params) : Instr → Nat
  | .configureDefault _ _ => 100
  | .configureDelay _ _ d => if d = 0#23 ∧ p.zeroDelayMeansDefault = true then 100 else d.toNat
  | .addFrame => 0
  | .finish => 0
  | .readOutput => 0
  | .getBlob => 0

/-- What a command appends to OUT when it runs to its end (R186, R187). -/
def State.appendedBy (s : State) : Instr → List Byte
  | .configureDefault _ _ => []
  | .configureDelay _ _ _ => []
  | .addFrame => s.addFrameBytes
  | .finish => s.finishBytes
  | .readOutput => []
  | .getBlob => []

/-- The faults of a legal word and whether the cause of each holds (60_exceptions.md R201), in the order of R203 from
NOT_CONFIGURED on. -/
def faultCauses (i : Instr) (s : State) : List (FaultCode × Bool) :=
  [ (.notConfigured, !s.status.cfg && !isConfigure i)
  , (.afterFinish, s.status.fin && (decide (i = .addFrame) || decide (i = .finish)))
  , (.badDimensions, (dimensions i).any fun d => decide (d.1 = 0) || decide (d.2 = 0))
  , (.delayRange, decide (655354 < effectiveDelayOf s.params i))
  , (.capacity, (dimensions i).any fun d => exceeds (d.1 * d.2) s.params.maxFramePixels)
  , (.bufferLength, decide (i = .addFrame) && decide (s.pixLen ≠ s.width.toNat * s.height.toNat * 4))
  , (.capacity, exceeds (s.outLen + (s.appendedBy i).length) s.params.outCapacity &&
      (decide (i = .addFrame) || decide (i = .finish))) ]

/-- The fault a command reports (R203): the first whose cause holds; none if no cause holds. -/
def reportedFault (i : Instr) (s : State) : FaultCode :=
  (((faultCauses i s).find? fun c => c.2).map fun c => c.1).getD .none

/-! ### The order of channels -/

/-- The number of a channel (41_palette_quantizer.md R102): 0 = R, 1 = G, 2 = B. -/
def channelIndex : Channel → Nat
  | .red => 0
  | .green => 1
  | .blue => 2

/-! ### The code stream on its own -/

/-- The (code, width) pairs emitted from a compressor state on, for the indices still to come (R155 to R158). -/
def codesFrom (mcs : Nat) : Compressor → List Byte → List (Nat × Nat)
  | c, [] => [(dictCode c.dict c.cur, c.codeSize), (eoiCode mcs, c.codeSize)]
  | c, k :: ks =>
    if dictHas c.dict (c.cur ++ [k]) then codesFrom mcs (setCur (c.cur ++ [k]) c) ks
    else if c.nextCode < lzwMaxCodes then
      (dictCode c.dict c.cur, c.codeSize) :: codesFrom mcs (setCur [k] (insertEntry k c)) ks
    else
      (dictCode c.dict c.cur, c.codeSize) :: (clearCode mcs, c.codeSize) :: codesFrom mcs (setCur [k] (dictReset mcs c)) ks

/-- The compressor state at a frame's first index. -/
def freshCompressor (mcs : Nat) (first : Byte) : Compressor := setCur [first] (dictReset mcs Work.empty.comp)

/-- The (code, width) pairs of a frame, in emission order (R161). -/
def lzwCodes (mcs : Nat) (first : Byte) (rest : List Byte) : List (Nat × Nat) :=
  (clearCode mcs, mcs + 1) :: codesFrom mcs (freshCompressor mcs first) rest

/-- What holds of the compressor's state before every index of a frame (43_lzw_compressor.md R151, R152, R156, and R162 items 2
to 4, which the spec marks as derived). -/
structure CompressorLegal (mcs : Nat) (c : Compressor) : Prop where
  /-- The width is mcs + 1 or more. -/
  size_ge : mcs + 1 ≤ c.codeSize
  /-- The width is at most 12. -/
  size_le : c.codeSize ≤ 12
  /-- The first code ever assigned is eoi + 1. -/
  next_ge : 2 ^ mcs + 2 ≤ c.nextCode
  /-- No code of 4096 or above is assigned. -/
  next_le : c.nextCode ≤ 4096
  /-- Every code assigned so far fits the width. -/
  next_fits : c.nextCode ≤ 2 ^ c.codeSize
  /-- Every key's code is one assigned so far. -/
  code_lt : ∀ (seq : List Byte) (code : Nat), c.dict.lookup seq = some code → code < c.nextCode
  /-- The clear and EOI codes are never values of DICT. -/
  code_plain : ∀ (seq : List Byte) (code : Nat), c.dict.lookup seq = some code → code ≠ 2 ^ mcs ∧ code ≠ 2 ^ mcs + 1
  /-- Two keys never share a code. -/
  code_injective : ∀ (seq seq' : List Byte) (code : Nat),
    c.dict.lookup seq = some code → c.dict.lookup seq' = some code → seq = seq'
  /-- The literals are keys, each with its own value as its code. -/
  literal : ∀ v : Byte, v.toNat < 2 ^ mcs → c.dict.lookup [v] = some v.toNat
  /-- The empty sequence is no key. -/
  key_ne_nil : c.dict.lookup [] = none
  /-- A key of two indices or more extends a key. -/
  key_prefix : ∀ (seq : List Byte) (k : Byte), seq ≠ [] → (c.dict.lookup (seq ++ [k])).isSome = true →
    (c.dict.lookup seq).isSome = true
  /-- The current match is a key. -/
  cur_key : (c.dict.lookup c.cur).isSome = true

/-- The bits of a code stream, least-significant bit of each code first, one code after the other (20_memory.md R58). -/
def codeBits (codes : List (Nat × Nat)) : List Bool :=
  codes.flatMap fun c => (List.range c.2).map fun i => c.1.testBit i

/-- Byte i of a bit sequence: bits 8i to 8i+7, the first as bit 0, with zeros past the end (R58; R159). -/
def bitsByte (bits : List Bool) (i : Nat) : Byte :=
  BitVec.ofNat 8 (((List.range 8).map fun j => if bits.getD (8 * i + j) false then 2 ^ j else 0).sum)

/-- The data bytes of a bit sequence. -/
def packedBytes (bits : List Bool) : List Byte := (List.range (ceilDiv bits.length 8)).map (bitsByte bits)

/-- Data bytes cut into sub-blocks of 255, the last one shorter (43_lzw_compressor.md R160). -/
def subBlocks (data : List Byte) : List Byte :=
  (List.range (ceilDiv data.length 255)).flatMap fun i => subBlock ((data.drop (255 * i)).take 255)

/-! ### The dictionary keyed by pairs -/

/-- A compressor whose dictionary is keyed by (prefix code, next index) (43_lzw_compressor.md R151). -/
structure PairCompressor where
  dict : List ((Nat × Byte) × Nat)
  codeSize : Nat
  nextCode : Nat
  curCode : Nat
deriving DecidableEq, Repr

/-- A fresh pair dictionary, with the match at one index: a literal's code is its value (R151, R152). -/
def freshPair (mcs : Nat) (first : Byte) : PairCompressor :=
  { dict := [], codeSize := mcs + 1, nextCode := eoiCode mcs + 1, curCode := first.toNat }

/-- The (code, width) pairs emitted with the pair dictionary. -/
def pairCodesFrom (mcs : Nat) : PairCompressor → List Byte → List (Nat × Nat)
  | c, [] => [(c.curCode, c.codeSize), (eoiCode mcs, c.codeSize)]
  | c, k :: ks =>
    match c.dict.lookup (c.curCode, k) with
    | some code => pairCodesFrom mcs { c with curCode := code } ks
    | none =>
      if c.nextCode < lzwMaxCodes then
        (c.curCode, c.codeSize) ::
          pairCodesFrom mcs
            { dict := ((c.curCode, k), c.nextCode) :: c.dict
              codeSize := widen (c.nextCode + 1) c.codeSize
              nextCode := c.nextCode + 1
              curCode := k.toNat } ks
      else (c.curCode, c.codeSize) :: (clearCode mcs, c.codeSize) :: pairCodesFrom mcs (freshPair mcs k) ks

/-- The (code, width) pairs of a frame with the pair dictionary. -/
def lzwPairCodes (mcs : Nat) (first : Byte) (rest : List Byte) : List (Nat × Nat) :=
  (clearCode mcs, mcs + 1) :: pairCodesFrom mcs (freshPair mcs first) rest

end Sys2Proof.Machine
end

