-- ==== Sys2Proof/Certificates/Slice0/Obligations.lean ====
section
/-! DEFINITION. The statements for the provers, from the numbered rules of spec/. A rule that the spec itself marks as its own
decision or as derived is named so in the docstring. -/

open Sys2Proof Sys2Proof.Machine

/-! ### Encoding -/

/-- 30_encoding.md R71 to R76: the word of every command decodes to that command, at every operand value. -/
def Obligations.DecodeEncodeRoundTrip : Prop :=
  ∀ i : Instr, decode (encode i) = some i

/-- 30_encoding.md R76 with R74: a word that decodes is the one word of its command, so no bit of a legal word is ignored. -/
def Obligations.DecodedWordIsItsEncoding : Prop :=
  ∀ (cmd : CmdWord) (i : Instr), decode cmd = some i → encode i = cmd

/-- 30_encoding.md R74 to R76: the decoder accepts exactly the words that break no condition of R74 and R75. -/
def Obligations.LegalWordsDecode : Prop :=
  ∀ cmd : CmdWord, (decode cmd).isSome = CmdWord.wellFormed cmd

/-- 30_encoding.md R75 (decision D4): a word is illegal when its opcode is not assigned or it breaks R74, and an illegal word
raises ILLEGAL_COMMAND and changes no state other than STATUS.FAULT. Every other word is a command, bit for bit. -/
def Obligations.IllegalWordTakesFault : Prop :=
  ∀ (cmd : CmdWord) (s : State), s.status.fault = .none →
    (CmdWord.wellFormed cmd = false →
      execute cmd s =
        .next { s with
          status := { s.status with fault := .illegalCommand }
          responses := s.responses ++ [{ resp := 0x01#8, payload := .empty }] }) ∧
    (CmdWord.wellFormed cmd = true → ∃ i, decode cmd = some i ∧ encode i = cmd)

/-- Words written out from the field layout of 30_encoding.md R71 and the opcodes of R73 (95_test_vectors.md E2, E5, E12 to
E15, E17, E19, E21, E22) decode as R76 says. -/
def Obligations.SampleWordsDecode : Prop :=
  decode 0x8000640002000201#64 = some (.configureDelay 2#16 2#16 100#23) ∧
  decode 0x000000FFFFFFFF01#64 = some (.configureDefault 65535#16 65535#16) ∧
  decode 0x0000000000000002#64 = some .addFrame ∧
  decode 0x0000000000000003#64 = some .finish ∧
  decode 0x0000000000000004#64 = some .readOutput ∧
  decode 0x0000000000000005#64 = some .getBlob ∧
  decode 0x0000000000000006#64 = none ∧
  decode 0x0000000000000102#64 = none ∧
  decode 0x8000000000000004#64 = none ∧
  decode 0x0000010002000201#64 = none

/-! ### Stepping and reset -/

/-- 44_container_commands.md R180 (the model's step, assumption logs 1 and 3): when the host's next event is a command whose
word decodes to i, the step is exec of i at the state with that command's pixel buffer presented and the event taken; the
buffer is given back from the next state. -/
def Obligations.StepRunsDecodedCommand : Prop :=
  ∀ (s : State) (c : Command) (rest : List HostEvent) (i : Instr),
    s.inputs = .command c :: rest → decode c.word = some i →
      step s =
        match exec i { s with pix := Memory.ofBytes c.pixels, inputs := rest } with
        | .next t => .next { t with pix := [] }
        | .fault r => .fault r
        | .refused r => .refused r

/-- 70_reset_and_hazards.md R220 with the table of 10_state.md R39 (decision D27): the registers, STATUS and OUT after RESET, at
the model's reset state and after a RESET asserted at any state, between commands or during one, which it abandons with no
response; the block is UNCONFIGURED then, and nothing but RESET leads out of FAULTED. The rule leaves the working state
unspecified, and so does this. That RESET is a host event, and that it keeps the parameters, the host's later events and the
responses already given, is the model's reading (assumption logs 1 and 4), not the rule's words. -/
def Obligations.ResetValues : Prop :=
  (State.reset.width = 0#16 ∧ State.reset.height = 0#16 ∧ State.reset.delayMs = 0#23 ∧
    State.reset.status.word = 0x00#8 ∧ State.reset.outRead = [] ∧ State.reset.outLen = 0) ∧
  (∀ (s : State) (c : Command) (rest : List HostEvent),
    s.inputs = .reset :: rest ∨ s.inputs = .resetDuring c :: rest →
      ∃ t, step s = .next t ∧
        t.width = 0#16 ∧ t.height = 0#16 ∧ t.delayMs = 0#23 ∧ t.status.word = 0x00#8 ∧ t.outRead = [] ∧ t.outLen = 0 ∧
        t.status.lifecycle = .unconfigured ∧ t.responses = s.responses ∧ t.params = s.params ∧ t.inputs = rest) ∧
  ∀ s t : State, s.status.fault ≠ .none → step s = .next t → t.status.fault = .none →
    ∃ (c : Command) (rest : List HostEvent), s.inputs = .reset :: rest ∨ s.inputs = .resetDuring c :: rest

/-- The reset state is legal and holds an empty stream (10_state.md R30, R39; the model's invariants of Sys2Proof/Safety.lean). -/
def Obligations.ResetIsLegal : Prop :=
  State.reset.Inv ∧ State.reset.StreamLegal

/-- Every step keeps the legal states: both memories in canonical form, the latch order of 10_state.md R30, the legal
configuration values of R22 to R24, and OUT within OUT_CAPACITY (R31). The latch order and the bound are inferences of the
spec ("[derived: from rule R27 and rule R187 …]") and of the model. -/
def Obligations.StepKeepsLegalState : Prop :=
  ∀ s t : State, s.Inv → step s = .next t → t.Inv

/-- Every step keeps OUT a prefix of the stream grammar of 30_encoding.md R81 and R82 that STATUS says: empty, or the header
and whole frames, or those and the trailer. R81 and R82 are marked as derived by the spec. -/
def Obligations.StepKeepsStreamGrammar : Prop :=
  ∀ s t : State, s.StreamLegal → step s = .next t → t.StreamLegal

/-- No legal state stops: from every legal state a step answers a next state. (The one refusal of the model, for a frame of no
pixels, needs a zero dimension; assumption log 12.) -/
def Obligations.LegalStatesAlwaysStep : Prop :=
  ∀ s : State, s.Inv → ∃ t, step s = .next t

/-- 60_exceptions.md R205 (decision D9): a FAULTED block accepts no command, changes nothing and gives no response, stays
FAULTED until RESET, and is no completed run. That a command offered to it is a next state in which the event is consumed and the
presented buffer is gone is the model's reading (assumption log 3; 93 U9 says stuck), and that a step with no event pending
changes nothing is too (assumption log 2). -/
def Obligations.FaultedBlockAcceptsNothing : Prop :=
  ∀ s : State, s.status.fault ≠ .none →
    (∀ cmd : CmdWord, execute cmd s = .next s) ∧
    (∀ i : Instr, exec i s = .next s) ∧
    (∀ (c : Command) (rest : List HostEvent), s.inputs = .command c :: rest →
      step s = .next { s with inputs := rest, pix := [] }) ∧
    (s.inputs = [] → step s = .next s) ∧
    (∀ (rest : List HostEvent), s.inputs = .reset :: rest → ∃ t, step s = .next t ∧ t.status.fault = .none) ∧
    ¬ s.Completed

/-- 10_state.md R25 and the table of 60_exceptions.md R200 (decision D9): the number of every fault code, and the bits of STATUS.
Bit 3 is 0 in every state, and FAULT is one of the codes 0 to 7 in every state. -/
def Obligations.StatusByteLayout : Prop :=
  (FaultCode.code .none = 0#4 ∧ FaultCode.code .illegalCommand = 1#4 ∧ FaultCode.code .notConfigured = 2#4 ∧
    FaultCode.code .afterFinish = 3#4 ∧ FaultCode.code .badDimensions = 4#4 ∧ FaultCode.code .delayRange = 5#4 ∧
    FaultCode.code .bufferLength = 6#4 ∧ FaultCode.code .capacity = 7#4) ∧
  ∀ st : Status,
    st.word.getLsbD 0 = st.cfg ∧ st.word.getLsbD 1 = st.hdr ∧ st.word.getLsbD 2 = st.fin ∧ st.word.getLsbD 3 = false ∧
    st.word.extractLsb' 4 4 = FaultCode.code st.fault ∧ (FaultCode.code st.fault).toNat ≤ 7 ∧
    (FaultCode.code st.fault = 0#4 ↔ st.fault = .none)

/-! ### CONFIGURE -/

/-- 10_state.md R40 (with 44_container_commands.md R185): a CONFIGURE that succeeds, in either form, completes with exactly this
state: the operands and the effective delay in the registers, HDR = 0, FIN = 0, CFG = 1, OUT empty, FAULT 0. Nothing else is
written. (The default of 100 ms is the source's; the treatment of an explicit 0 is the parameter of decision D8.) -/
def Obligations.ConfigureCompletes : Prop :=
  ∀ (s : State) (w h : BitVec 16),
    s.status.fault = .none → w ≠ 0#16 → h ≠ 0#16 →
    (∀ m, s.params.maxFramePixels = some m → w.toNat * h.toNat ≤ m) →
      exec (.configureDefault w h) s =
        .next { s with
          width := w, height := h, delayMs := 100#23, out := []
          status := { cfg := true, hdr := false, fin := false, fault := .none }
          responses := s.responses ++ [{ resp := 0x00#8, payload := .empty }] } ∧
      ∀ d : BitVec 23, d.toNat ≤ 655354 →
        exec (.configureDelay w h d) s =
          .next { s with
            width := w, height := h, out := []
            delayMs := if d = 0#23 ∧ s.params.zeroDelayMeansDefault = true then 100#23 else d
            status := { cfg := true, hdr := false, fin := false, fault := .none }
            responses := s.responses ++ [{ resp := 0x00#8, payload := .empty }] }

/-- 44_container_commands.md R185 and 60_exceptions.md R201, R203 (decisions D6, D7, D15): where CONFIGURE faults, in order, and
that only STATUS.FAULT changes. -/
def Obligations.ConfigureTraps : Prop :=
  ∀ (s : State) (w h : BitVec 16) (d : BitVec 23), s.status.fault = .none →
    (w = 0#16 ∨ h = 0#16 →
      exec (.configureDefault w h) s = .next (s.afterFault .badDimensions) ∧
      exec (.configureDelay w h d) s = .next (s.afterFault .badDimensions)) ∧
    (w ≠ 0#16 → h ≠ 0#16 → 655354 < d.toNat →
      exec (.configureDelay w h d) s = .next (s.afterFault .delayRange)) ∧
    (∀ m, w ≠ 0#16 → h ≠ 0#16 → s.params.maxFramePixels = some m → m < w.toNat * h.toNat →
      exec (.configureDefault w h) s = .next (s.afterFault .capacity) ∧
      (d.toNat ≤ 655354 → exec (.configureDelay w h d) s = .next (s.afterFault .capacity)))

/-! ### ADD_FRAME and FINISH -/

/-- 44_container_commands.md R186: an ADD_FRAME with a buffer of the right length, on a configured, unfinished block with room in
OUT, completes: the one-time header if it is still to come, then the frame's bytes, are appended; HDR is 1; nothing else
changes but the working state and its counter, which are left free. -/
def Obligations.AddFrameCompletes : Prop :=
  ∀ s : State,
    s.status.fault = .none → s.status.cfg = true → s.status.fin = false →
    1 ≤ s.width.toNat → 1 ≤ s.height.toNat →
    s.pixLen = s.width.toNat * s.height.toNat * 4 →
    (∀ c, s.params.outCapacity = some c → s.outLen + s.addFrameBytes.length ≤ c) →
      ∃ (w : Work) (n : Nat),
        exec .addFrame s =
          .next { s with
            out := Memory.append s.out s.addFrameBytes
            status := { s.status with hdr := true }
            work := w, freeCount := n
            responses := s.responses ++ [{ resp := 0x00#8, payload := .empty }] }

/-- 44_container_commands.md R186 and 60_exceptions.md R201, R203 (decisions D10, D11, D12): where ADD_FRAME faults before it
changes anything. -/
def Obligations.AddFrameTraps : Prop :=
  ∀ s : State, s.status.fault = .none →
    (s.status.cfg = false → exec .addFrame s = .next (s.afterFault .notConfigured)) ∧
    (s.status.cfg = true → s.status.fin = true → exec .addFrame s = .next (s.afterFault .afterFinish)) ∧
    (s.status.cfg = true → s.status.fin = false → s.pixLen ≠ s.width.toNat * s.height.toNat * 4 →
      exec .addFrame s = .next (s.afterFault .bufferLength))

/-- 44_container_commands.md R187: a FINISH on a configured, unfinished block with room in OUT completes with exactly this state:
the one-time header if it is still to come, then the trailer, are appended; HDR and FIN are 1. -/
def Obligations.FinishCompletes : Prop :=
  ∀ s : State,
    s.status.fault = .none → s.status.cfg = true → s.status.fin = false →
    (∀ c, s.params.outCapacity = some c → s.outLen + s.finishBytes.length ≤ c) →
      exec .finish s =
        .next { s with
          out := Memory.append s.out s.finishBytes
          status := { s.status with hdr := true, fin := true }
          responses := s.responses ++ [{ resp := 0x00#8, payload := .empty }] }

/-- 44_container_commands.md R187 and 60_exceptions.md R201, R203 (decisions D11, D12): where FINISH faults before it changes
anything. -/
def Obligations.FinishTraps : Prop :=
  ∀ s : State, s.status.fault = .none →
    (s.status.cfg = false → exec .finish s = .next (s.afterFault .notConfigured)) ∧
    (s.status.cfg = true → s.status.fin = true → exec .finish s = .next (s.afterFault .afterFinish))

/-- 60_exceptions.md R204 (decision D15): an ADD_FRAME or FINISH whose bytes do not fit ends FAULTED with CAPACITY and the
response 7; WIDTH, HEIGHT, DELAY_MS, CFG and FIN are unchanged, and nothing is said of OUT and HDR. With both capacity
parameters unbounded, no command raises CAPACITY. -/
def Obligations.AppendCapacityFault : Prop :=
  (∀ (s : State) (i : Instr) (c : Nat),
    s.status.fault = .none → s.status.cfg = true → s.status.fin = false →
    (i = .addFrame ∧ s.pixLen = s.width.toNat * s.height.toNat * 4 ∨ i = .finish) →
    s.params.outCapacity = some c → c < s.outLen + (s.appendedBy i).length →
      ∃ t, exec i s = .next t ∧
        t.status.fault = .capacity ∧
        t.responses = s.responses ++ [{ resp := 0x07#8, payload := .empty }] ∧
        t.width = s.width ∧ t.height = s.height ∧ t.delayMs = s.delayMs ∧
        t.status.cfg = s.status.cfg ∧ t.status.fin = s.status.fin) ∧
  (∀ (s t : State) (i : Instr),
    s.params.outCapacity = none → s.params.maxFramePixels = none → s.status.fault ≠ .capacity →
    exec i s = .next t → t.status.fault ≠ .capacity)

/-! ### READ_OUTPUT and GET_BLOB -/

/-- 44_container_commands.md R188 and R189: on a configured block, finished or not, READ_OUTPUT and GET_BLOB complete, return the
snapshot OutRead(), GET_BLOB's with the tag "image/gif", and change no state but the responses given; before the first
CONFIGURE they fault NOT_CONFIGURED. Their words are 0x04 and 0x05 with bits 63:8 zero. (Reading before FINISH is decision D14, the tag decision D32.) -/
def Obligations.ReadsReturnSnapshot : Prop :=
  encode .readOutput = 0x0000000000000004#64 ∧ encode .getBlob = 0x0000000000000005#64 ∧
  ∀ s : State, s.status.fault = .none →
    (s.status.cfg = true →
      exec .readOutput s =
        .next { s with responses := s.responses ++ [{ resp := 0x00#8, payload := .bytes s.outRead }] } ∧
      exec .getBlob s =
        .next { s with responses := s.responses ++ [{ resp := 0x00#8, payload := .blob s.outRead .imageGif }] }) ∧
    (s.status.cfg = false →
      exec .readOutput s = .next (s.afterFault .notConfigured) ∧
      exec .getBlob s = .next (s.afterFault .notConfigured))

/-! ### Rules over all commands -/

/-- 60_exceptions.md R201 and R203 (decision D9): the fault a command reports is the first in the order of R203 whose cause holds,
ILLEGAL_COMMAND before all others, and a command in a FAULTED block reports nothing. -/
def Obligations.ReportedFaultFollowsPriority : Prop :=
  ∀ (cmd : CmdWord) (s t : State), execute cmd s = .next t →
    (s.status.fault = .none →
      t.status.fault =
        match decode cmd with
        | none => .illegalCommand
        | some i => reportedFault i s) ∧
    (s.status.fault ≠ .none → t = s)

/-- 60_exceptions.md R202: every fault but a CAPACITY raised by an append leaves everything as it was before the command but
STATUS.FAULT and the response. The precision clause is an inference of the spec ("[derived: … each check comes before the
first write]"). -/
def Obligations.FaultsArePrecise : Prop :=
  ∀ (i : Instr) (s t : State), s.status.fault = .none → exec i s = .next t → t.status.fault ≠ .none →
    (t.status.fault = .capacity → isConfigure i = true) → t = s.afterFault t.status.fault

/-- 30_encoding.md R77 (decision D37): every accepted command gives exactly one response, with resp[7:4] = 0 and resp[3:0] the
code of the fault it raised or 0; READ_OUTPUT and GET_BLOB carry their data when they complete; a command issued while
STATUS.FAULT ≠ 0 has no response. -/
def Obligations.ResponseWord : Prop :=
  ∀ (cmd : CmdWord) (s t : State), execute cmd s = .next t →
    (s.status.fault ≠ .none → t.responses = s.responses) ∧
    (s.status.fault = .none →
      t.responses = s.responses ++
        [{ resp := 0#4 ++ FaultCode.code t.status.fault
           payload :=
             if t.status.fault ≠ .none then .empty
             else if decode cmd = some .readOutput then .bytes s.outRead
             else if decode cmd = some .getBlob then .blob s.outRead .imageGif
             else .empty }])

/-- 20_memory.md R54: no step alters a response already given, so a snapshot already returned stays as it was. -/
def Obligations.ResponsesOnlyGrow : Prop :=
  ∀ s t : State, step s = .next t → ∃ more, t.responses = s.responses ++ more ∧ more.length ≤ 1

/-- 44_container_commands.md R181 (decisions D9, D11 to D14): the lifecycle state each command that completes leaves, and the fault
each command raises in each lifecycle state. -/
def Obligations.LifecycleTransitions : Prop :=
  ∀ (i : Instr) (s : State),
    (s.status.lifecycle = .faulted → exec i s = .next s) ∧
    (s.status.lifecycle = .unconfigured → isConfigure i = false → exec i s = .next (s.afterFault .notConfigured)) ∧
    (s.status.lifecycle = .finished → (i = .addFrame ∨ i = .finish) → exec i s = .next (s.afterFault .afterFinish)) ∧
    (∀ t, exec i s = .next t → t.status.fault = .none →
      t.status.lifecycle =
        match i with
        | .configureDefault _ _ => .empty
        | .configureDelay _ _ _ => .empty
        | .addFrame => .opened
        | .finish => .finished
        | .readOutput => s.status.lifecycle
        | .getBlob => s.status.lifecycle)

/-- 10_state.md R22, R23, R24 and R26: no command but CONFIGURE writes WIDTH, HEIGHT, DELAY_MS or CFG, whatever its outcome. -/
def Obligations.OnlyConfigureWritesConfiguration : Prop :=
  ∀ (i : Instr) (s t : State), isConfigure i = false → exec i s = .next t →
    t.width = s.width ∧ t.height = s.height ∧ t.delayMs = s.delayMs ∧ t.status.cfg = s.status.cfg

/-- 10_state.md R27: while HDR is 0 the next ADD_FRAME or FINISH appends the one-time header first and sets HDR; while HDR is 1 no
command appends it, and nothing but CONFIGURE (or a CAPACITY fault of an append, which leaves HDR open) clears HDR. -/
def Obligations.HeaderLatchIsOneShot : Prop :=
  ∀ (i : Instr) (s t : State), exec i s = .next t →
    (t.status.fault = .none → i = .addFrame ∨ i = .finish →
      t.status.hdr = true ∧
      t.outRead =
        s.outRead ++ (if s.status.hdr = true then [] else headerBytes s.width.toNat s.height.toNat) ++
          (if i = .finish then [0x3B#8]
           else frameBytes s.delayMs.toNat s.width.toNat s.height.toNat s.pixBytes)) ∧
    (s.status.hdr = true → t.status.hdr = false → isConfigure i = true ∨ t.status.fault = .capacity)

/-- The memory frame of ADD_FRAME, FINISH, READ_OUTPUT and GET_BLOB (20_memory.md R53; 10_state.md R31): a command that completes
writes only the bytes from offset OUT_LEN on that it appends, and they are the bytes it appends; every other offset of OUT
reads as before. READ_OUTPUT and GET_BLOB append none. -/
def Obligations.OnlyAppendedBytesChange : Prop :=
  ∀ (i : Instr) (s t : State), isConfigure i = false → exec i s = .next t → t.status.fault = .none →
    t.outRead = s.outRead ++ s.appendedBy i ∧
    ∀ a : Nat, (a < s.outLen ∨ s.outLen + (s.appendedBy i).length ≤ a) → Memory.read t.out a = Memory.read s.out a

/-- 20_memory.md R51 ("The block never writes PIX"), 44_container_commands.md R182 (the parameters are fixed for a run): no command
changes PIX, the host's later events or the parameters, whatever its outcome. -/
def Obligations.HostSideUntouched : Prop :=
  ∀ (i : Instr) (s t : State), exec i s = .next t → t.pix = s.pix ∧ t.inputs = s.inputs ∧ t.params = s.params

/-- 10_state.md R37: no command reads the working state left by an earlier one (nor the model's counter of free values). A
command's effect on everything else is the same whatever they hold, but for a CAPACITY fault, after which OUT and HDR are
unspecified. -/
def Obligations.WorkingStateNeverRead : Prop :=
  ∀ (i : Instr) (s t : State) (w : Work) (n : Nat), exec i s = .next t → t.status.fault ≠ .capacity →
    ∃ (w' : Work) (n' : Nat),
      exec i { s with work := w, freeCount := n } = .next { t with work := w', freeCount := n' }

/-- 20_memory.md R51 and R67: only ADD_FRAME reads PIX, and after a command's step the block holds no copy of it. R67 is marked as
derived by the spec. -/
def Obligations.PixNotRetained : Prop :=
  (∀ (i : Instr) (s t : State) (m : Memory), i ≠ .addFrame → exec i s = .next t →
    exec i { s with pix := m } = .next { t with pix := m }) ∧
  (∀ (s t : State) (c : Command) (rest : List HostEvent), s.inputs = .command c :: rest → step s = .next t → t.pix = [])

/-! ### palette_quantizer -/

/-- 20_memory.md R55: pixel p is bytes 4p, 4p+1, 4p+2 in the order R, G, B, and the A byte is never read: two buffers that differ
in A bytes only give the same frame. -/
def Obligations.PixelLayout : Prop :=
  (∀ (bs : List Byte) (n : Nat), bs.length = 4 * n →
    (pixels bs).length = n ∧
    ∀ p < n, (pixels bs)[p]? = some
      { r := bs.getD (4 * p) 0#8, g := bs.getD (4 * p + 1) 0#8, b := bs.getD (4 * p + 2) 0#8 }) ∧
  (∀ (xs ys : List Byte) (delayMs w h : Nat), xs.length = w * h * 4 → ys.length = w * h * 4 →
    (∀ i, i % 4 ≠ 3 → xs[i]? = ys[i]?) → frameBytes delayMs w h xs = frameBytes delayMs w h ys)

/-- 41_palette_quantizer.md R100: the samples are pixels 0, step, 2·step, … of the frame, with step = 1 up to 10000 pixels and
ceil(P / 10000) above, and there are at most 10000. (The start at pixel 0 and the list with duplicates are the spec's
decisions D17 and D18; the count is marked as derived.) -/
def Obligations.SamplesEveryStep : Prop :=
  ∀ (px : List Rgb) (p : Nat), px.length = p → 1 ≤ p →
    (p ≤ 10000 → sampleStep p = 1) ∧
    (10000 < p → (sampleStep p - 1) * 10000 < p ∧ p ≤ sampleStep p * 10000) ∧
    (sample p px).length = ceilDiv p (sampleStep p) ∧ (sample p px).length ≤ 10000 ∧
    ∀ k < (sample p px).length, (sample p px)[k]? = px[k * sampleStep p]?

/-- 41_palette_quantizer.md R102: RANGE is the difference of the largest and the smallest value of the channel in the bucket. -/
def Obligations.RangeIsMaxMinusMin : Prop :=
  ∀ (b : Bucket) (c : Channel), b ≠ [] →
    ∃ hi ∈ b, ∃ lo ∈ b, (∀ s ∈ b, lo.channel c ≤ s.channel c ∧ s.channel c ≤ hi.channel c) ∧
      bucketRange b c = hi.channel c - lo.channel c ∧ bucketRange b c ≤ 255

/-- 41_palette_quantizer.md R103 (the tie rule is decision D19): SELECT answers the slot and channel of the widest positive range
among the buckets of two members or more, the earliest in the order of slots and then of R, G, B on a tie, and none when no
such range is positive. -/
def Obligations.SelectTakesFirstWidest : Prop :=
  ∀ bs : List Bucket,
    (selectSplit bs = none →
      ∀ (j : Nat) (b : Bucket) (c : Channel), bs[j]? = some b → 2 ≤ b.length → bucketRange b c = 0) ∧
    (∀ (j : Nat) (c : Channel), selectSplit bs = some (j, c) →
      ∃ b, bs[j]? = some b ∧ 2 ≤ b.length ∧ 0 < bucketRange b c ∧
        ∀ (j' : Nat) (b' : Bucket) (c' : Channel), bs[j']? = some b' → 2 ≤ b'.length →
          bucketRange b' c' ≤ bucketRange b c ∧
          ((j' < j ∨ (j' = j ∧ channelIndex c' < channelIndex c)) → bucketRange b' c' < bucketRange b c))

/-- 41_palette_quantizer.md R105 (the stable ascending sort is decision D20, the midpoint decision D21): SPLIT sorts the bucket
stably in ascending order of the channel, its lower n div 2 members keep the slot, and the rest are appended as a new bucket. -/
def Obligations.SplitHalvesSortedBucket : Prop :=
  ∀ (bs : List Bucket) (bb : Nat) (bc : Channel) (b : Bucket), bs[bb]? = some b → 2 ≤ b.length →
    ∃ lo hi : Bucket,
      splitBucket bs bb bc = bs.set bb lo ++ [hi] ∧
      lo.length = b.length / 2 ∧ hi.length = b.length - b.length / 2 ∧
      (lo ++ hi).Perm b ∧ (lo ++ hi).Pairwise (fun x y => x.channel bc ≤ y.channel bc) ∧
      ∀ v : Nat, (lo ++ hi).filter (fun x => decide (x.channel bc = v)) = b.filter (fun x => decide (x.channel bc = v))

/-- 41_palette_quantizer.md R101, R104: median cut of a non-empty sample list ends with 256 buckets or with none that can be split,
has 1 to 256 buckets, none of them empty, and together they hold exactly the samples. (The count and the non-emptiness are
marked as derived by the spec; the loop's bound of 255 rounds in the model is assumption log 15.) -/
def Obligations.MedianCutEnds : Prop :=
  ∀ samples : List Rgb, samples ≠ [] →
    1 ≤ (medianCutLoop (initBuckets samples)).length ∧ (medianCutLoop (initBuckets samples)).length ≤ 256 ∧
    ((medianCutLoop (initBuckets samples)).length = 256 ∨ selectSplit (medianCutLoop (initBuckets samples)) = none) ∧
    (∀ b ∈ medianCutLoop (initBuckets samples), b ≠ []) ∧
    (medianCutLoop (initBuckets samples)).flatten.Perm samples

/-- 41_palette_quantizer.md R106 (half up is decision D16): each channel of a bucket's colour is the rounded mean of the members'
values, and an empty bucket yields black. -/
def Obligations.MeanRoundsHalfUp : Prop :=
  mean [] = { r := 0#8, g := 0#8, b := 0#8 } ∧
  ∀ (b : Bucket) (c : Channel), b ≠ [] →
    (mean b).channel c = (2 * (b.map fun s => s.channel c).sum + b.length) / (2 * b.length)

/-- 41_palette_quantizer.md R108: MAP gives every pixel, in pixel order, the lowest index among the palette entries at the least
squared Euclidean distance, which is computed without A. -/
def Obligations.NearestLowestIndex : Prop :=
  (∀ a b : Rgb, (distance a b : Int) =
    ((a.r.toNat : Int) - b.r.toNat) ^ 2 + ((a.g.toNat : Int) - b.g.toNat) ^ 2 + ((a.b.toNat : Int) - b.b.toNat) ^ 2) ∧
  ∀ (pal px : List Rgb), pal ≠ [] → pal.length ≤ 256 →
    (mapPixels pal px).length = px.length ∧
    ∀ (p : Nat) (q : Rgb), px[p]? = some q →
      ∃ (j : Byte) (best : Rgb), (mapPixels pal px)[p]? = some j ∧ pal[j.toNat]? = some best ∧
        ∀ (k : Nat) (other : Rgb), pal[k]? = some other →
          distance q best ≤ distance q other ∧ (k < j.toNat → distance q best < distance q other)

/-- 41_palette_quantizer.md R110: for a frame of at least one pixel QUANTIZE composes SAMPLE, INIT_BUCKETS, MEDIAN_CUT_LOOP and
MEAN into the palette, in slot order, and MAP of that palette over all pixels into the indices. And R109, marked as derived by
the spec: the palette has 1 to 256 colours, there is one index per pixel, each below the palette's length, and both depend on
the frame alone, whatever working state was left before. -/
def Obligations.QuantizerInvariants : Prop :=
  ∀ (w h : Nat) (bs : List Byte) (left : Work), bs.length = w * h * 4 → 1 ≤ w * h →
    (frameWork w h bs).pal = (medianCutLoop (initBuckets (sample (w * h) (pixels bs)))).map mean ∧
    (frameWork w h bs).idx =
      mapPixels ((medianCutLoop (initBuckets (sample (w * h) (pixels bs)))).map mean) (pixels bs) ∧
    1 ≤ (frameWork w h bs).pal.length ∧ (frameWork w h bs).pal.length ≤ 256 ∧
    (frameWork w h bs).idx.length = w * h ∧
    (∀ x ∈ (frameWork w h bs).idx, x.toNat < (frameWork w h bs).pal.length) ∧
    (quantize (w * h) (pixels bs) left).pal = (frameWork w h bs).pal ∧
    (quantize (w * h) (pixels bs) left).idx = (frameWork w h bs).idx

/-- 41_palette_quantizer.md R107: zero input samples yield a palette of black alone and no index. -/
def Obligations.ZeroSamplesYieldBlack : Prop :=
  ∀ w : Work, (quantize 0 [] w).pal = [{ r := 0#8, g := 0#8, b := 0#8 }] ∧ (quantize 0 [] w).idx = []

/-! ### gif_frame_serializer -/

/-- 42_gif_frame_serializer.md R130 and R132: the 32 bytes of the one-time header, with width and height low byte first at
offsets 6 to 9. -/
def Obligations.HeaderLayout : Prop :=
  ∀ w h : Nat, w ≤ 65535 → h ≤ 65535 →
    headerBytes w h =
      [0x47#8, 0x49#8, 0x46#8, 0x38#8, 0x39#8, 0x61#8,
        BitVec.ofNat 8 (w % 256), BitVec.ofNat 8 (w / 256), BitVec.ofNat 8 (h % 256), BitVec.ofNat 8 (h / 256),
        0x00#8, 0x00#8, 0x00#8,
        0x21#8, 0xFF#8, 0x0B#8, 0x4E#8, 0x45#8, 0x54#8, 0x53#8, 0x43#8, 0x41#8, 0x50#8, 0x45#8, 0x32#8, 0x2E#8, 0x30#8,
        0x03#8, 0x01#8, 0x00#8, 0x00#8, 0x00#8]

/-- 42_gif_frame_serializer.md R133, R134, R136 and R137: the bytes before a frame's LZW data: the graphic control extension with
the delay in centiseconds, rounded half up, the image descriptor at (0,0), and the colour table, 18 + 3·2^bits bytes. -/
def Obligations.FrameHeadLayout : Prop :=
  ∀ (delayMs w h : Nat) (pal : List Rgb), delayMs ≤ 655354 → w ≤ 65535 → h ≤ 65535 →
    (2 * delayMs + 10) / 20 ≤ 65535 ∧
    frameHead delayMs w h pal =
      [0x21#8, 0xF9#8, 0x04#8, 0x00#8,
        BitVec.ofNat 8 ((2 * delayMs + 10) / 20 % 256), BitVec.ofNat 8 ((2 * delayMs + 10) / 20 / 256), 0x00#8, 0x00#8,
        0x2C#8, 0x00#8, 0x00#8, 0x00#8, 0x00#8,
        BitVec.ofNat 8 (w % 256), BitVec.ofNat 8 (w / 256), BitVec.ofNat 8 (h % 256), BitVec.ofNat 8 (h / 256),
        BitVec.ofNat 8 (0x80 + (paletteBits pal.length - 1))] ++ colorTable pal (paletteBits pal.length) ∧
    (frameHead delayMs w h pal).length = 18 + 3 * 2 ^ paletteBits pal.length

/-- 42_gif_frame_serializer.md R131: the smallest b in [2,8] such that 2^b is at least the palette's length. -/
def Obligations.PaletteBitsSmallest : Prop :=
  ∀ n : Nat, 1 ≤ n → n ≤ 256 →
    2 ≤ paletteBits n ∧ paletteBits n ≤ 8 ∧ n ≤ 2 ^ paletteBits n ∧ ∀ b : Nat, 2 ≤ b → n ≤ 2 ^ b → paletteBits n ≤ b

/-- 42_gif_frame_serializer.md R135 and 20_memory.md R59: the colour table has 2^bits entries of three bytes in the order R, G, B,
the palette's colours first and black after them. -/
def Obligations.ColorTableEntries : Prop :=
  ∀ (pal : List Rgb) (bits : Nat),
    (colorTable pal bits).length = 3 * 2 ^ bits ∧
    ∀ j < 2 ^ bits,
      (colorTable pal bits)[3 * j]? = some (pal.getD j { r := 0#8, g := 0#8, b := 0#8 }).r ∧
      (colorTable pal bits)[3 * j + 1]? = some (pal.getD j { r := 0#8, g := 0#8, b := 0#8 }).g ∧
      (colorTable pal bits)[3 * j + 2]? = some (pal.getD j { r := 0#8, g := 0#8, b := 0#8 }).b

/-- 10_state.md R24 and 00_scope.md R13: a delay fits the 16-bit field exactly up to 655354 ms, and round_half_up gives a nearest
integer, the larger one at a half (decision D16). -/
def Obligations.DelayRangeAndRounding : Prop :=
  (∀ d : Nat, roundHalfUp d 10 ≤ 65535 ↔ d ≤ 655354) ∧
  ∀ a b : Nat, 0 < b → 2 * b * roundHalfUp a b ≤ 2 * a + b ∧ 2 * a + b < 2 * b * (roundHalfUp a b + 1)

/-- 42_gif_frame_serializer.md R139 and 44_container_commands.md R183, marked as derived by the spec: a frame record is
8 + 10 + 3·2^bits + L bytes, where bits is the bit width of the frame's palette and L the length of its LZW block, which is at
least 5; so it is at least 35, and an ADD_FRAME that completes lengthens OUT by at least 35. -/
def Obligations.FrameByteCounts : Prop :=
  (∀ (delayMs w h : Nat) (bs : List Byte), bs.length = w * h * 4 → 1 ≤ w * h →
    let bits := paletteBits (frameWork w h bs).pal.length
    let l := (lzwBlock bits (frameWork w h bs).idx).length
    2 ≤ bits ∧ bits ≤ 8 ∧ 5 ≤ l ∧ (frameBytes delayMs w h bs).length = 8 + 10 + 3 * 2 ^ bits + l ∧
      35 ≤ (frameBytes delayMs w h bs).length) ∧
  (∀ s t : State, exec .addFrame s = .next t → t.status.fault = .none → s.outLen + 35 ≤ t.outLen)

/-! ### lzw_compressor -/

/-- 43_lzw_compressor.md R152: DICT_RESET leaves the literals alone as keys, the width at mcs + 1 and the next code at EOI + 1. -/
def Obligations.DictResetState : Prop :=
  ∀ (mcs : Nat) (c : Compressor), 2 ≤ mcs → mcs ≤ 8 →
    (dictReset mcs c).codeSize = mcs + 1 ∧ (dictReset mcs c).nextCode = 2 ^ mcs + 2 ∧ (dictReset mcs c).cur = c.cur ∧
    (∀ v : Byte, v.toNat < 2 ^ mcs → (dictReset mcs c).dict.lookup [v] = some v.toNat) ∧
    ∀ seq : List Byte, (∀ v : Byte, v.toNat < 2 ^ mcs → seq ≠ [v]) → (dictReset mcs c).dict.lookup seq = none

/-- 43_lzw_compressor.md R153: EMIT_CODE puts the code above the pending bits, puts out every complete byte, low byte first, and
keeps the rest: fewer than 8 bits. -/
def Obligations.EmitCodePacksBits : Prop :=
  ∀ (c : Nat) (z : Lzw), c < 2 ^ z.comp.codeSize → z.pack.bitbuf < 2 ^ z.pack.bitcnt →
    let v := z.pack.bitbuf + c * 2 ^ z.pack.bitcnt
    let n := (z.pack.bitcnt + z.comp.codeSize) / 8
    let put := ((List.range n).map fun i => BitVec.ofNat 8 (v / 256 ^ i % 256)).foldl (fun z b => putByte b z) z
    (emitCode c z).pack.bitcnt = (z.pack.bitcnt + z.comp.codeSize) % 8 ∧
    (emitCode c z).pack.bitbuf = v / 256 ^ n ∧
    (emitCode c z).pack.bitbuf < 2 ^ (emitCode c z).pack.bitcnt ∧
    (emitCode c z).pack.sb = put.pack.sb ∧ (emitCode c z).appended = put.appended ∧ (emitCode c z).comp = z.comp

/-- 43_lzw_compressor.md R154 (closing at the 255th byte is decision D26): PUT_BYTE. -/
def Obligations.PutByteClosesAt255 : Prop :=
  ∀ (b : Byte) (z : Lzw),
    (z.pack.sb.length + 1 = 255 →
      putByte b z = { z with pack := { z.pack with sb := [] }, appended := z.appended ++ (0xFF#8 :: (z.pack.sb ++ [b])) }) ∧
    (z.pack.sb.length + 1 ≠ 255 → putByte b z = { z with pack := { z.pack with sb := z.pack.sb ++ [b] } })

/-- 43_lzw_compressor.md R155, R156 and R157 (decisions D22, D23, D24): one index extends the match; or it emits the match's code
and inserts the extended sequence, widening the codes when the next code exceeds the width; or, with the table full, it
emits the clear code at the current width and starts a fresh dictionary. Matching restarts from the index. -/
def Obligations.MatchOrMismatch : Prop :=
  ∀ (mcs : Nat) (z : Lzw) (k : Byte),
    ((z.comp.dict.lookup (z.comp.cur ++ [k])).isSome = true →
      matchStep mcs z k = { z with comp := { z.comp with cur := z.comp.cur ++ [k] } }) ∧
    (∀ code, z.comp.dict.lookup z.comp.cur = some code → z.comp.dict.lookup (z.comp.cur ++ [k]) = none →
      (z.comp.nextCode < 4096 →
        (matchStep mcs z k).pack = (emitCode code z).pack ∧ (matchStep mcs z k).appended = (emitCode code z).appended ∧
        (matchStep mcs z k).comp.cur = [k] ∧ (matchStep mcs z k).comp.nextCode = z.comp.nextCode + 1 ∧
        (matchStep mcs z k).comp.dict.lookup (z.comp.cur ++ [k]) = some z.comp.nextCode ∧
        (∀ seq, seq ≠ z.comp.cur ++ [k] → (matchStep mcs z k).comp.dict.lookup seq = z.comp.dict.lookup seq) ∧
        (matchStep mcs z k).comp.codeSize =
          if z.comp.nextCode + 1 > 2 ^ z.comp.codeSize ∧ z.comp.codeSize < 12 then z.comp.codeSize + 1
          else z.comp.codeSize) ∧
      (4096 ≤ z.comp.nextCode →
        (matchStep mcs z k).pack = (emitCode (2 ^ mcs) (emitCode code z)).pack ∧
        (matchStep mcs z k).appended = (emitCode (2 ^ mcs) (emitCode code z)).appended ∧
        (matchStep mcs z k).comp = { dictReset mcs z.comp with cur := [k] }))

/-- 43_lzw_compressor.md R159 (decisions D26, D33): FLUSH puts out a partial byte, writes what is left in the sub-block buffer as a
short sub-block, and ends with the terminator; nothing stays pending. -/
def Obligations.FlushClosesBlock : Prop :=
  ∀ z : Lzw, z.pack.bitbuf < 256 →
    let u := if z.pack.bitcnt = 0 then z else putByte (BitVec.ofNat 8 z.pack.bitbuf) z
    (flush z).appended =
      u.appended ++ (if u.pack.sb = [] then [] else BitVec.ofNat 8 u.pack.sb.length :: u.pack.sb) ++ [0x00#8] ∧
    (flush z).pack.bitcnt = 0 ∧ (flush z).pack.sb = [] ∧ (z.pack.bitcnt ≠ 0 → (flush z).pack.bitbuf = 0) ∧
    (flush z).comp = z.comp

/-- 43_lzw_compressor.md R160 and 30_encoding.md R82, marked as derived by the spec: the block is mcs, sub-blocks of 255 data bytes
but for the last, and the terminator. -/
def Obligations.LzwBlockFraming : Prop :=
  ∀ (bits : Nat) (first : Byte) (rest : List Byte), 2 ≤ bits → bits ≤ 8 →
    IsLzwBlock bits (lzwBlock bits (first :: rest))

/-- 43_lzw_compressor.md R153, R154, R159, R161 with 20_memory.md R58: the compressor with its packer writes exactly mcs, then the
code stream's bits, least-significant bit of each code first, in bytes filled from bit 0 up with zero padding, cut into
sub-blocks of at most 255, then the terminator. -/
def Obligations.LzwBlockPacksCodeStream : Prop :=
  ∀ (bits : Nat) (first : Byte) (rest : List Byte), 2 ≤ bits → bits ≤ 8 →
    (∀ x ∈ first :: rest, x.toNat < 2 ^ bits) →
      lzwBlock bits (first :: rest) =
        BitVec.ofNat 8 bits :: (subBlocks (packedBytes (codeBits (lzwCodes bits first rest))) ++ [0x00#8])

/-- 43_lzw_compressor.md R151, marked as derived by the spec: a dictionary keyed by the pair (DICT[cur], k) assigns exactly the same
codes, so the code streams are equal. -/
def Obligations.PairDictionarySameCodes : Prop :=
  ∀ (mcs : Nat) (first : Byte) (rest : List Byte), 2 ≤ mcs → mcs ≤ 8 →
    (∀ x ∈ first :: rest, x.toNat < 2 ^ mcs) →
      lzwPairCodes mcs first rest = lzwCodes mcs first rest

/-- 43_lzw_compressor.md R162, marked as derived by the spec: the first code is clear; the last two are the final match's, which is
neither clear nor eoi (R151), and eoi, at one width (R158); every code fits the width it is written at, which lies in
mcs + 1 .. 12; no code reaches 4096; every literal code, one below clear, is the value of an index of the frame; and a frame of P
indices has 3 codes or more, 4 or more when P ≥ 2, and at most 3 + 2·(P − 1). -/
def Obligations.CodeStreamInvariants : Prop :=
  ∀ (mcs : Nat) (first : Byte) (rest : List Byte), 2 ≤ mcs → mcs ≤ 8 →
    (∀ x ∈ first :: rest, x.toNat < 2 ^ mcs) →
      (lzwCodes mcs first rest).head? = some (2 ^ mcs, mcs + 1) ∧
      (∃ (earlier : List (Nat × Nat)) (code width : Nat),
        lzwCodes mcs first rest = earlier ++ [(code, width), (2 ^ mcs + 1, width)] ∧
        code ≠ 2 ^ mcs ∧ code ≠ 2 ^ mcs + 1) ∧
      (∀ c ∈ lzwCodes mcs first rest, c.1 < 2 ^ c.2 ∧ mcs + 1 ≤ c.2 ∧ c.2 ≤ 12 ∧ c.1 < 4096) ∧
      (∀ c ∈ lzwCodes mcs first rest, c.1 < 2 ^ mcs → ∃ x ∈ first :: rest, x.toNat = c.1) ∧
      3 ≤ (lzwCodes mcs first rest).length ∧ (rest ≠ [] → 4 ≤ (lzwCodes mcs first rest).length) ∧
      (lzwCodes mcs first rest).length ≤ 3 + 2 * rest.length

/-- 43_lzw_compressor.md R151, R152, R155 to R157 and R162 items 2 to 4 (an inference of the spec): the compressor's state at a
frame's first index is legal, and MATCH or MISMATCH on any index below 2^mcs keeps it legal, from every legal state: the code
width in mcs + 1 .. 12 and wide enough for every code assigned, no code of 4096 or above, the clear and EOI codes no values of
DICT, no code shared by two keys, and the literals and the current match keys. -/
def Obligations.CompressorStepKeepsLegal : Prop :=
  ∀ mcs : Nat, 2 ≤ mcs → mcs ≤ 8 → ∀ k : Byte, k.toNat < 2 ^ mcs →
    CompressorLegal mcs (freshCompressor mcs k) ∧
    ∀ z : Lzw, CompressorLegal mcs z.comp → CompressorLegal mcs (matchStep mcs z k).comp

/-! ### The block as a whole -/

/-- 00_scope.md R4 and 70_reset_and_hazards.md R222: with unbounded capacities, from any unfaulted state, the commands CONFIGURE in
either form, one ADD_FRAME per buffer and FINISH lead to a completed state whose OUT is the header, the frames in order, and the
trailer: a pure function of the configuration, the effective delay and the buffers. The effective delay is 100 ms with DP = 0,
and with DP = 1 the operand as the parameter ZERO_DELAY_MEANS_DEFAULT reads it (44_container_commands.md R185; decision D8). -/
def Obligations.StreamOfFrames : Prop :=
  ∀ (s : State) (w h : BitVec 16) (configure : Instr) (delay : Nat) (frames : List (List Byte)),
    s.status.fault = .none → s.params.outCapacity = none → s.params.maxFramePixels = none →
    w ≠ 0#16 → h ≠ 0#16 →
    (configure = .configureDefault w h ∧ delay = 100 ∨
      ∃ d : BitVec 23, configure = .configureDelay w h d ∧ delay = effectiveDelayGiven s.params d ∧ d.toNat ≤ 655354) →
    (∀ f ∈ frames, f.length = w.toNat * h.toNat * 4) →
    s.inputs =
      .command { word := encode configure, pixels := [] } ::
        (frames.map fun f => HostEvent.command { word := encode .addFrame, pixels := f }) ++
        [.command { word := encode .finish, pixels := [] }] →
      ∃ t, Host.Core.run core (frames.length + 2) s = .next t ∧ t.Completed ∧
        t.outRead =
          headerBytes w.toNat h.toNat ++ (frames.map (frameBytes delay w.toNat h.toNat)).flatten ++ [0x3B#8]
end

