-- ==== Sys2Proof/Laws/State.lean ====
section
/-! SUPPORT. What each update of the state does to each field, one lemma per field per update. -/

namespace Sys2Proof.Machine

/-! ### State.setConfig -/

@[simp] theorem State.setConfig_width (s : State) (w h : BitVec 16) (d : BitVec 23) : (s.setConfig w h d).width = w := rfl
@[simp] theorem State.setConfig_height (s : State) (w h : BitVec 16) (d : BitVec 23) : (s.setConfig w h d).height = h := rfl
@[simp] theorem State.setConfig_delayMs (s : State) (w h : BitVec 16) (d : BitVec 23) : (s.setConfig w h d).delayMs = d := rfl
@[simp] theorem State.setConfig_status (s : State) (w h : BitVec 16) (d : BitVec 23) : (s.setConfig w h d).status = s.status := rfl
@[simp] theorem State.setConfig_out (s : State) (w h : BitVec 16) (d : BitVec 23) : (s.setConfig w h d).out = s.out := rfl
@[simp] theorem State.setConfig_work (s : State) (w h : BitVec 16) (d : BitVec 23) : (s.setConfig w h d).work = s.work := rfl
@[simp] theorem State.setConfig_pix (s : State) (w h : BitVec 16) (d : BitVec 23) : (s.setConfig w h d).pix = s.pix := rfl
@[simp] theorem State.setConfig_inputs (s : State) (w h : BitVec 16) (d : BitVec 23) : (s.setConfig w h d).inputs = s.inputs := rfl
@[simp] theorem State.setConfig_responses (s : State) (w h : BitVec 16) (d : BitVec 23) : (s.setConfig w h d).responses = s.responses := rfl
@[simp] theorem State.setConfig_params (s : State) (w h : BitVec 16) (d : BitVec 23) : (s.setConfig w h d).params = s.params := rfl
@[simp] theorem State.setConfig_freeCount (s : State) (w h : BitVec 16) (d : BitVec 23) : (s.setConfig w h d).freeCount = s.freeCount := rfl

/-! ### State.setStatus -/

@[simp] theorem State.setStatus_width (s : State) (st : Status) : (s.setStatus st).width = s.width := rfl
@[simp] theorem State.setStatus_height (s : State) (st : Status) : (s.setStatus st).height = s.height := rfl
@[simp] theorem State.setStatus_delayMs (s : State) (st : Status) : (s.setStatus st).delayMs = s.delayMs := rfl
@[simp] theorem State.setStatus_status (s : State) (st : Status) : (s.setStatus st).status = st := rfl
@[simp] theorem State.setStatus_out (s : State) (st : Status) : (s.setStatus st).out = s.out := rfl
@[simp] theorem State.setStatus_work (s : State) (st : Status) : (s.setStatus st).work = s.work := rfl
@[simp] theorem State.setStatus_pix (s : State) (st : Status) : (s.setStatus st).pix = s.pix := rfl
@[simp] theorem State.setStatus_inputs (s : State) (st : Status) : (s.setStatus st).inputs = s.inputs := rfl
@[simp] theorem State.setStatus_responses (s : State) (st : Status) : (s.setStatus st).responses = s.responses := rfl
@[simp] theorem State.setStatus_params (s : State) (st : Status) : (s.setStatus st).params = s.params := rfl
@[simp] theorem State.setStatus_freeCount (s : State) (st : Status) : (s.setStatus st).freeCount = s.freeCount := rfl

/-! ### State.setOut -/

@[simp] theorem State.setOut_width (s : State) (m : Memory) : (s.setOut m).width = s.width := rfl
@[simp] theorem State.setOut_height (s : State) (m : Memory) : (s.setOut m).height = s.height := rfl
@[simp] theorem State.setOut_delayMs (s : State) (m : Memory) : (s.setOut m).delayMs = s.delayMs := rfl
@[simp] theorem State.setOut_status (s : State) (m : Memory) : (s.setOut m).status = s.status := rfl
@[simp] theorem State.setOut_out (s : State) (m : Memory) : (s.setOut m).out = m := rfl
@[simp] theorem State.setOut_work (s : State) (m : Memory) : (s.setOut m).work = s.work := rfl
@[simp] theorem State.setOut_pix (s : State) (m : Memory) : (s.setOut m).pix = s.pix := rfl
@[simp] theorem State.setOut_inputs (s : State) (m : Memory) : (s.setOut m).inputs = s.inputs := rfl
@[simp] theorem State.setOut_responses (s : State) (m : Memory) : (s.setOut m).responses = s.responses := rfl
@[simp] theorem State.setOut_params (s : State) (m : Memory) : (s.setOut m).params = s.params := rfl
@[simp] theorem State.setOut_freeCount (s : State) (m : Memory) : (s.setOut m).freeCount = s.freeCount := rfl

/-! ### State.appendOut -/

@[simp] theorem State.appendOut_width (s : State) (bs : List Byte) : (s.appendOut bs).width = s.width := rfl
@[simp] theorem State.appendOut_height (s : State) (bs : List Byte) : (s.appendOut bs).height = s.height := rfl
@[simp] theorem State.appendOut_delayMs (s : State) (bs : List Byte) : (s.appendOut bs).delayMs = s.delayMs := rfl
@[simp] theorem State.appendOut_status (s : State) (bs : List Byte) : (s.appendOut bs).status = s.status := rfl
@[simp] theorem State.appendOut_out (s : State) (bs : List Byte) : (s.appendOut bs).out = Memory.append s.out bs := rfl
@[simp] theorem State.appendOut_work (s : State) (bs : List Byte) : (s.appendOut bs).work = s.work := rfl
@[simp] theorem State.appendOut_pix (s : State) (bs : List Byte) : (s.appendOut bs).pix = s.pix := rfl
@[simp] theorem State.appendOut_inputs (s : State) (bs : List Byte) : (s.appendOut bs).inputs = s.inputs := rfl
@[simp] theorem State.appendOut_responses (s : State) (bs : List Byte) : (s.appendOut bs).responses = s.responses := rfl
@[simp] theorem State.appendOut_params (s : State) (bs : List Byte) : (s.appendOut bs).params = s.params := rfl
@[simp] theorem State.appendOut_freeCount (s : State) (bs : List Byte) : (s.appendOut bs).freeCount = s.freeCount := rfl

/-! ### State.setWork -/

@[simp] theorem State.setWork_width (s : State) (w : Work) : (s.setWork w).width = s.width := rfl
@[simp] theorem State.setWork_height (s : State) (w : Work) : (s.setWork w).height = s.height := rfl
@[simp] theorem State.setWork_delayMs (s : State) (w : Work) : (s.setWork w).delayMs = s.delayMs := rfl
@[simp] theorem State.setWork_status (s : State) (w : Work) : (s.setWork w).status = s.status := rfl
@[simp] theorem State.setWork_out (s : State) (w : Work) : (s.setWork w).out = s.out := rfl
@[simp] theorem State.setWork_work (s : State) (w : Work) : (s.setWork w).work = w := rfl
@[simp] theorem State.setWork_pix (s : State) (w : Work) : (s.setWork w).pix = s.pix := rfl
@[simp] theorem State.setWork_inputs (s : State) (w : Work) : (s.setWork w).inputs = s.inputs := rfl
@[simp] theorem State.setWork_responses (s : State) (w : Work) : (s.setWork w).responses = s.responses := rfl
@[simp] theorem State.setWork_params (s : State) (w : Work) : (s.setWork w).params = s.params := rfl
@[simp] theorem State.setWork_freeCount (s : State) (w : Work) : (s.setWork w).freeCount = s.freeCount := rfl

/-! ### State.discardWork -/

@[simp] theorem State.discardWork_width (s : State) : (s.discardWork).width = s.width := rfl
@[simp] theorem State.discardWork_height (s : State) : (s.discardWork).height = s.height := rfl
@[simp] theorem State.discardWork_delayMs (s : State) : (s.discardWork).delayMs = s.delayMs := rfl
@[simp] theorem State.discardWork_status (s : State) : (s.discardWork).status = s.status := rfl
@[simp] theorem State.discardWork_out (s : State) : (s.discardWork).out = s.out := rfl
@[simp] theorem State.discardWork_work (s : State) : (s.discardWork).work = Config.freeWork s.freeCount := rfl
@[simp] theorem State.discardWork_pix (s : State) : (s.discardWork).pix = s.pix := rfl
@[simp] theorem State.discardWork_inputs (s : State) : (s.discardWork).inputs = s.inputs := rfl
@[simp] theorem State.discardWork_responses (s : State) : (s.discardWork).responses = s.responses := rfl
@[simp] theorem State.discardWork_params (s : State) : (s.discardWork).params = s.params := rfl
@[simp] theorem State.discardWork_freeCount (s : State) : (s.discardWork).freeCount = s.freeCount + 1 := rfl

/-! ### State.respond -/

@[simp] theorem State.respond_width (s : State) (r : Response) : (s.respond r).width = s.width := rfl
@[simp] theorem State.respond_height (s : State) (r : Response) : (s.respond r).height = s.height := rfl
@[simp] theorem State.respond_delayMs (s : State) (r : Response) : (s.respond r).delayMs = s.delayMs := rfl
@[simp] theorem State.respond_status (s : State) (r : Response) : (s.respond r).status = s.status := rfl
@[simp] theorem State.respond_out (s : State) (r : Response) : (s.respond r).out = s.out := rfl
@[simp] theorem State.respond_work (s : State) (r : Response) : (s.respond r).work = s.work := rfl
@[simp] theorem State.respond_pix (s : State) (r : Response) : (s.respond r).pix = s.pix := rfl
@[simp] theorem State.respond_inputs (s : State) (r : Response) : (s.respond r).inputs = s.inputs := rfl
@[simp] theorem State.respond_responses (s : State) (r : Response) : (s.respond r).responses = s.responses ++ [r] := rfl
@[simp] theorem State.respond_params (s : State) (r : Response) : (s.respond r).params = s.params := rfl
@[simp] theorem State.respond_freeCount (s : State) (r : Response) : (s.respond r).freeCount = s.freeCount := rfl

/-! ### State.present -/

@[simp] theorem State.present_width (s : State) (px : List Byte) (rest : List HostEvent) : (s.present px rest).width = s.width := rfl
@[simp] theorem State.present_height (s : State) (px : List Byte) (rest : List HostEvent) : (s.present px rest).height = s.height := rfl
@[simp] theorem State.present_delayMs (s : State) (px : List Byte) (rest : List HostEvent) : (s.present px rest).delayMs = s.delayMs := rfl
@[simp] theorem State.present_status (s : State) (px : List Byte) (rest : List HostEvent) : (s.present px rest).status = s.status := rfl
@[simp] theorem State.present_out (s : State) (px : List Byte) (rest : List HostEvent) : (s.present px rest).out = s.out := rfl
@[simp] theorem State.present_work (s : State) (px : List Byte) (rest : List HostEvent) : (s.present px rest).work = s.work := rfl
@[simp] theorem State.present_pix (s : State) (px : List Byte) (rest : List HostEvent) : (s.present px rest).pix = Memory.ofBytes px := rfl
@[simp] theorem State.present_inputs (s : State) (px : List Byte) (rest : List HostEvent) : (s.present px rest).inputs = rest := rfl
@[simp] theorem State.present_responses (s : State) (px : List Byte) (rest : List HostEvent) : (s.present px rest).responses = s.responses := rfl
@[simp] theorem State.present_params (s : State) (px : List Byte) (rest : List HostEvent) : (s.present px rest).params = s.params := rfl
@[simp] theorem State.present_freeCount (s : State) (px : List Byte) (rest : List HostEvent) : (s.present px rest).freeCount = s.freeCount := rfl

/-! ### State.releasePix -/

@[simp] theorem State.releasePix_width (s : State) : (s.releasePix).width = s.width := rfl
@[simp] theorem State.releasePix_height (s : State) : (s.releasePix).height = s.height := rfl
@[simp] theorem State.releasePix_delayMs (s : State) : (s.releasePix).delayMs = s.delayMs := rfl
@[simp] theorem State.releasePix_status (s : State) : (s.releasePix).status = s.status := rfl
@[simp] theorem State.releasePix_out (s : State) : (s.releasePix).out = s.out := rfl
@[simp] theorem State.releasePix_work (s : State) : (s.releasePix).work = s.work := rfl
@[simp] theorem State.releasePix_pix (s : State) : (s.releasePix).pix = [] := rfl
@[simp] theorem State.releasePix_inputs (s : State) : (s.releasePix).inputs = s.inputs := rfl
@[simp] theorem State.releasePix_responses (s : State) : (s.releasePix).responses = s.responses := rfl
@[simp] theorem State.releasePix_params (s : State) : (s.releasePix).params = s.params := rfl
@[simp] theorem State.releasePix_freeCount (s : State) : (s.releasePix).freeCount = s.freeCount := rfl

/-! ### State.resetSignal -/

@[simp] theorem State.resetSignal_width (s : State) : (s.resetSignal).width = 0#16 := rfl
@[simp] theorem State.resetSignal_height (s : State) : (s.resetSignal).height = 0#16 := rfl
@[simp] theorem State.resetSignal_delayMs (s : State) : (s.resetSignal).delayMs = 0#23 := rfl
@[simp] theorem State.resetSignal_status (s : State) : (s.resetSignal).status = State.reset.status := rfl
@[simp] theorem State.resetSignal_out (s : State) : (s.resetSignal).out = [] := rfl
@[simp] theorem State.resetSignal_work (s : State) : (s.resetSignal).work = Config.freeWork s.freeCount := rfl
@[simp] theorem State.resetSignal_pix (s : State) : (s.resetSignal).pix = [] := rfl
@[simp] theorem State.resetSignal_inputs (s : State) : (s.resetSignal).inputs = s.inputs := rfl
@[simp] theorem State.resetSignal_responses (s : State) : (s.resetSignal).responses = s.responses := rfl
@[simp] theorem State.resetSignal_params (s : State) : (s.resetSignal).params = s.params := rfl
@[simp] theorem State.resetSignal_freeCount (s : State) : (s.resetSignal).freeCount = s.freeCount + 1 := rfl

/-! ### Status -/

@[simp] theorem Status.configured_cfg (st : Status) : (st.configured).cfg = true := rfl
@[simp] theorem Status.configured_hdr (st : Status) : (st.configured).hdr = false := rfl
@[simp] theorem Status.configured_fin (st : Status) : (st.configured).fin = false := rfl
@[simp] theorem Status.configured_fault (st : Status) : (st.configured).fault = st.fault := rfl
@[simp] theorem Status.withHdr_cfg (st : Status) (v : Bool) : (st.withHdr v).cfg = st.cfg := rfl
@[simp] theorem Status.withHdr_hdr (st : Status) (v : Bool) : (st.withHdr v).hdr = v := rfl
@[simp] theorem Status.withHdr_fin (st : Status) (v : Bool) : (st.withHdr v).fin = st.fin := rfl
@[simp] theorem Status.withHdr_fault (st : Status) (v : Bool) : (st.withHdr v).fault = st.fault := rfl
@[simp] theorem Status.finished_cfg (st : Status) : (st.finished).cfg = st.cfg := rfl
@[simp] theorem Status.finished_hdr (st : Status) : (st.finished).hdr = st.hdr := rfl
@[simp] theorem Status.finished_fin (st : Status) : (st.finished).fin = true := rfl
@[simp] theorem Status.finished_fault (st : Status) : (st.finished).fault = st.fault := rfl
@[simp] theorem Status.withFault_cfg (st : Status) (f : FaultCode) : (st.withFault f).cfg = st.cfg := rfl
@[simp] theorem Status.withFault_hdr (st : Status) (f : FaultCode) : (st.withFault f).hdr = st.hdr := rfl
@[simp] theorem Status.withFault_fin (st : Status) (f : FaultCode) : (st.withFault f).fin = st.fin := rfl
@[simp] theorem Status.withFault_fault (st : Status) (f : FaultCode) : (st.withFault f).fault = f := rfl

end Sys2Proof.Machine
end

