-- ==== Sys2Proof/Laws/Memory.lean ====
section
/-! SUPPORT. The byte memories: lengths, contents, reads, and that every operation keeps the canonical form. -/

namespace Sys2Proof.Machine

@[simp] theorem Memory.cellsFrom_length (base : Nat) (bs : List Byte) : (Memory.cellsFrom base bs).length = bs.length := by
  induction bs generalizing base with
  | nil => rfl
  | cons b bs ih => simp [Memory.cellsFrom, ih]

@[simp] theorem Memory.cellsFrom_bytes (base : Nat) (bs : List Byte) : Memory.bytes (Memory.cellsFrom base bs) = bs := by
  induction bs generalizing base with
  | nil => rfl
  | cons b bs ih =>
    show b :: Memory.bytes (Memory.cellsFrom (base + 1) bs) = b :: bs
    rw [ih]

theorem Memory.cellsFrom_append (base : Nat) (xs ys : List Byte) :
    Memory.cellsFrom base (xs ++ ys) = Memory.cellsFrom base xs ++ Memory.cellsFrom (base + xs.length) ys := by
  induction xs generalizing base with
  | nil => rfl
  | cons x xs ih => simp [Memory.cellsFrom, ih, Nat.add_assoc, Nat.add_comm 1]

/-- The addresses of consecutive cells. -/
theorem Memory.cellsFrom_addresses (base : Nat) (bs : List Byte) :
    (Memory.cellsFrom base bs).map Prod.fst = List.range' base bs.length := by
  induction bs generalizing base with
  | nil => rfl
  | cons b bs ih => simp [Memory.cellsFrom, ih, List.range'_succ]

@[simp] theorem Memory.ofBytes_length (bs : List Byte) : (Memory.ofBytes bs).length = bs.length :=
  Memory.cellsFrom_length 0 bs

@[simp] theorem Memory.ofBytes_bytes (bs : List Byte) : Memory.bytes (Memory.ofBytes bs) = bs := Memory.cellsFrom_bytes 0 bs

@[simp] theorem Memory.bytes_nil : Memory.bytes [] = [] := rfl

@[simp] theorem Memory.bytes_length (m : Memory) : (Memory.bytes m).length = m.length := by simp [Memory.bytes]

@[simp] theorem Memory.append_length (m : Memory) (bs : List Byte) : (Memory.append m bs).length = m.length + bs.length := by
  simp [Memory.append]

@[simp] theorem Memory.append_bytes (m : Memory) (bs : List Byte) :
    Memory.bytes (Memory.append m bs) = Memory.bytes m ++ bs := by
  have h := Memory.cellsFrom_bytes m.length bs
  simp only [Memory.bytes] at h
  simp [Memory.append, Memory.bytes, h]

@[simp] theorem Memory.append_nil (m : Memory) : Memory.append m [] = m := by simp [Memory.append, Memory.cellsFrom]

/-- Two appends in a row are one. -/
theorem Memory.append_append (m : Memory) (xs ys : List Byte) :
    Memory.append (Memory.append m xs) ys = Memory.append m (xs ++ ys) := by
  simp [Memory.append, Memory.cellsFrom_append]

/-- The canonical form, as an equation on the addresses. -/
theorem Memory.wf_iff (m : Memory) : Memory.wf m = true ↔ m.map Prod.fst = List.range m.length := by simp [Memory.wf]

@[simp] theorem Memory.wf_nil : Memory.wf [] = true := rfl

@[simp] theorem Memory.wf_ofBytes (bs : List Byte) : Memory.wf (Memory.ofBytes bs) = true := by
  rw [Memory.wf_iff, Memory.ofBytes, Memory.cellsFrom_addresses, Memory.cellsFrom_length, List.range_eq_range']

/-- Appending keeps the canonical form. -/
theorem Memory.wf_append {m : Memory} (h : Memory.wf m = true) (bs : List Byte) : Memory.wf (Memory.append m bs) = true := by
  rw [Memory.wf_iff] at h ⊢
  rw [Memory.append_length, Memory.append, List.map_append, h, Memory.cellsFrom_addresses, List.range_eq_range',
    List.range_eq_range']
  simpa using (List.range'_append_1 (s := 0) (m := m.length) (n := bs.length))

/-- In canonical form the addresses rise strictly. -/
theorem Memory.wf_rising {m : Memory} (h : Memory.wf m = true) : (m.map Prod.fst).Pairwise (· < ·) := by
  rw [(Memory.wf_iff m).mp h]
  exact List.pairwise_lt_range

/-- Consecutive cells hold no byte outside their addresses. -/
theorem Memory.read_cellsFrom_outside (base : Nat) (bs : List Byte) (a : Nat) (h : a < base ∨ base + bs.length ≤ a) :
    Memory.read (Memory.cellsFrom base bs) a = none := by
  induction bs generalizing base with
  | nil => rfl
  | cons b bs ih =>
    have hne : a ≠ base := by simp at h; omega
    have := ih (base + 1) (by simp at h; omega)
    simpa [Memory.read, Memory.cellsFrom, List.lookup, hne, beq_eq_false_iff_ne.mpr hne] using this

/-- Consecutive cells hold their bytes in order. -/
theorem Memory.read_cellsFrom (base : Nat) (bs : List Byte) (i : Nat) :
    Memory.read (Memory.cellsFrom base bs) (base + i) = bs[i]? := by
  induction bs generalizing base i with
  | nil => rfl
  | cons b bs ih =>
    cases i with
    | zero => simp [Memory.read, Memory.cellsFrom]
    | succ i =>
      have hne : (base + (i + 1) == base) = false := by simp
      have := ih (base + 1) i
      rw [Nat.add_right_comm, Nat.add_assoc] at this
      simpa [Memory.read, Memory.cellsFrom, List.lookup, hne] using this

/-- PixRead(i) of a presented buffer is its byte i. -/
theorem Memory.read_ofBytes (bs : List Byte) (i : Nat) : Memory.read (Memory.ofBytes bs) i = bs[i]? := by
  simpa [Memory.ofBytes] using Memory.read_cellsFrom 0 bs i

/-- An append changes no byte outside the bytes it adds. -/
theorem Memory.read_append_outside (m : Memory) (bs : List Byte) (a : Nat) (h : a < m.length ∨ m.length + bs.length ≤ a) :
    Memory.read (Memory.append m bs) a = Memory.read m a := by
  have hout := Memory.read_cellsFrom_outside m.length bs a h
  simp only [Memory.read, Memory.append] at hout ⊢
  rw [List.lookup_append, hout]
  simp

end Sys2Proof.Machine
end

