-- ==== Sys2Proof/Laws/Compressor.lean ====
section
/-! SUPPORT. lzw_compressor: what its operations leave alone, and what they write. -/

namespace Sys2Proof.Machine

/-! ### The packer leaves the compressor's own state alone -/

@[simp] theorem putByte_comp (b : Byte) (z : Lzw) : (putByte b z).comp = z.comp := by
  unfold putByte
  simp only
  split <;> rfl

@[simp] theorem emitLowByte_comp (z : Lzw) : (emitLowByte z).comp = z.comp := by simp [emitLowByte]

@[simp] theorem emitBytes_comp (n : Nat) (z : Lzw) : (emitBytes n z).comp = z.comp := by
  induction n generalizing z with
  | zero => rfl
  | succ n ih => simp [emitBytes, ih]

@[simp] theorem emitCode_comp (c : Nat) (z : Lzw) : (emitCode c z).comp = z.comp := by simp [emitCode]

/-! ### What the packer does depends on nothing of the compressor's state but codeSize -/

theorem putByte_onComp (f : Compressor → Compressor) (b : Byte) (z : Lzw) :
    putByte b (onComp f z) = onComp f (putByte b z) := by
  unfold putByte
  dsimp only [onComp]
  split <;> rfl

theorem emitLowByte_onComp (f : Compressor → Compressor) (z : Lzw) :
    emitLowByte (onComp f z) = onComp f (emitLowByte z) := by
  simp only [emitLowByte]
  rw [show (onComp f z).pack = z.pack from rfl, putByte_onComp]
  rfl

theorem emitBytes_onComp (f : Compressor → Compressor) (n : Nat) (z : Lzw) :
    emitBytes n (onComp f z) = onComp f (emitBytes n z) := by
  induction n generalizing z with
  | zero => rfl
  | succ n ih => simp [emitBytes, emitLowByte_onComp, ih]

theorem emitCode_onComp (f : Compressor → Compressor) (hf : ∀ c, (f c).codeSize = c.codeSize) (c : Nat) (z : Lzw) :
    emitCode c (onComp f z) = onComp f (emitCode c z) := by
  simp only [emitCode]
  rw [← emitBytes_onComp]
  have h1 : (onComp f z).comp.codeSize = z.comp.codeSize := hf z.comp
  have h2 : (onComp f z).pack = z.pack := rfl
  rw [h1, h2]
  rfl

/-- The compressor state found at the start does not matter: LZW_COMPRESS overwrites all of it (43_lzw_compressor.md R161). -/
theorem lzwCompress_of_state (bits : Nat) (first : Byte) (rest : List Byte) (c c' : Compressor) :
    lzwCompress bits first rest c = lzwCompress bits first rest c' := by
  have : lzwStart (minCodeSize bits) first c = lzwStart (minCodeSize bits) first c' := by
    unfold lzwStart
    rw [← emitCode_onComp (setCur [first]) (fun _ => rfl), ← emitCode_onComp (setCur [first]) (fun _ => rfl)]
    rfl
  simp only [lzwCompress, this]

end Sys2Proof.Machine
end

