-- ==== Sys2Proof/Laws/CodeStream.lean ====
section
/-! SUPPORT. lzw_compressor: the invariant of its dictionary, the code stream it emits, and the bytes the packer makes of one. -/

namespace Sys2Proof.Machine

/-! ### The compressor's own invariant (CompressorLegal of Sys2Proof/Safety.lean) -/

/-- An entry found in an association list is in it. -/
theorem mem_of_lookup {α β : Type} [BEq α] [LawfulBEq α] : ∀ (l : List (α × β)) (a : α) (b : β),
    l.lookup a = some b → (a, b) ∈ l
  | [], a, b, h => by simp at h
  | (x, y) :: l, a, b, h => by
    rw [List.lookup_cons] at h
    cases hx : a == x
    · rw [hx] at h
      exact List.mem_cons_of_mem _ (mem_of_lookup l a b h)
    · rw [hx] at h
      simp at h hx
      subst hx
      subst h
      exact List.mem_cons_self

/-- The powers of two that the minimum code size allows. -/
theorem clear_bounds {mcs : Nat} (h2 : 2 ≤ mcs) (h8 : mcs ≤ 8) : 4 ≤ 2 ^ mcs ∧ 2 ^ mcs ≤ 256 := by
  have := Nat.pow_le_pow_right (n := 2) (by omega) h2
  have := Nat.pow_le_pow_right (n := 2) (by omega) h8
  omega

/-- The literal entries (43_lzw_compressor.md R151). -/
theorem literalDict_lookup {mcs : Nat} (h2 : 2 ≤ mcs) (h8 : mcs ≤ 8) (v : Byte) (hv : v.toNat < 2 ^ mcs) :
    (literalDict mcs).lookup [v] = some v.toNat := by
  have hp := clear_bounds h2 h8
  have key : ∀ n s, s + n ≤ 2 ^ mcs → s ≤ v.toNat → v.toNat < s + n →
      ((List.range' s n).map fun v => ([BitVec.ofNat 8 v], v)).lookup [v] = some v.toNat := by
    intro n
    induction n with
    | zero => intros; omega
    | succ n ih =>
      intro s h1 h2 h3
      rw [List.range'_succ, List.map_cons, List.lookup_cons]
      by_cases he : v.toNat = s
      · have : v = BitVec.ofNat 8 s := by subst he; simp
        subst this
        simp [he]
      · have : ([v] == [BitVec.ofNat 8 s]) = false := by
          rw [beq_eq_false_iff_ne]
          intro e
          simp at e
          rw [e] at he
          simp at he
          omega
        rw [this]
        exact ih (s + 1) (by omega) (by omega) (by omega)
  rw [literalDict, clearCode, List.range_eq_range']
  exact key (2 ^ mcs) 0 (by omega) (by omega) (by omega)

/-- Only single indices are keys of a fresh dictionary. -/
theorem literalDict_key {mcs : Nat} {s : List Byte} {v : Nat} (h : (literalDict mcs).lookup s = some v) :
    s = [BitVec.ofNat 8 v] ∧ v < 2 ^ mcs := by
  have := mem_of_lookup _ _ _ h
  simp [literalDict, clearCode] at this
  exact ⟨this.2.symm, this.1⟩

/-- A fresh dictionary with the match at one index is legal. -/
theorem CompressorLegal.reset {mcs : Nat} (h2 : 2 ≤ mcs) (h8 : mcs ≤ 8) (c : Compressor) {k : Byte} (hk : k.toNat < 2 ^ mcs) :
    CompressorLegal mcs (setCur [k] (dictReset mcs c)) := by
  have hp := clear_bounds h2 h8
  have hpow : 2 ^ (mcs + 1) = 2 * 2 ^ mcs := by rw [Nat.pow_succ]; omega
  refine
    { size_ge := le_refl _
      size_le := by show mcs + 1 ≤ 12; omega
      next_ge := le_refl _
      next_le := by show 2 ^ mcs + 1 + 1 ≤ 4096; omega
      next_fits := by show 2 ^ mcs + 1 + 1 ≤ 2 ^ (mcs + 1); omega
      code_lt := ?_
      code_plain := ?_
      code_injective := ?_
      literal := fun v hv => literalDict_lookup h2 h8 v hv
      key_ne_nil := ?_
      key_prefix := ?_
      cur_key := by rw [Option.isSome_iff_exists]; exact ⟨_, literalDict_lookup h2 h8 k hk⟩ }
  · intro seq code h
    have := (literalDict_key h).2
    show code < 2 ^ mcs + 1 + 1
    omega
  · intro seq code h
    have := (literalDict_key h).2
    omega
  · intro seq seq' code h h'
    rw [(literalDict_key h).1, (literalDict_key h').1]
  · rw [Option.eq_none_iff_forall_ne_some]
    intro code h
    simpa using (literalDict_key h).1
  · intro seq j hne h
    obtain ⟨code, hc⟩ := Option.isSome_iff_exists.mp h
    have := congrArg List.length (literalDict_key hc).1
    simp [hne] at this

/-- MATCH keeps the invariant (43_lzw_compressor.md R155). -/
theorem CompressorLegal.extend {mcs : Nat} {c : Compressor} (h : CompressorLegal mcs c) {k : Byte}
    (hk : dictHas c.dict (c.cur ++ [k]) = true) : CompressorLegal mcs (setCur (c.cur ++ [k]) c) :=
  { h with cur_key := hk }

/-- The width after an insertion: never narrower, at most 12, and wide enough for every code assigned so far (R156). -/
theorem widen_spec {next codeSize : Nat} (h1 : codeSize ≤ 12) (h2 : next ≤ 2 ^ codeSize + 1) (h3 : next ≤ 4096) :
    codeSize ≤ widen next codeSize ∧ widen next codeSize ≤ 12 ∧ next ≤ 2 ^ widen next codeSize := by
  unfold widen lzwMaxBits
  split
  · have : 0 < 2 ^ codeSize := Nat.two_pow_pos _
    rw [Nat.pow_succ]
    omega
  · next hc =>
    refine ⟨le_refl _, h1, ?_⟩
    by_contra hlt
    have : codeSize = 12 := by omega
    rw [this] at hlt
    omega

/-- What DICT holds after an insertion: nextCode for the extended match, and what it held for every other sequence (R156). -/
theorem insertEntry_lookup (k : Byte) (c : Compressor) (seq : List Byte) :
    (insertEntry k c).dict.lookup seq = if seq = c.cur ++ [k] then some c.nextCode else c.dict.lookup seq := by
  simp only [insertEntry, dictInsert, List.lookup_cons]
  split
  · next e => simp [beq_iff_eq.mp e]
  · next e => rw [if_neg (by simpa using e)]

/-- The current match is not empty. -/
theorem CompressorLegal.cur_ne_nil {mcs : Nat} {c : Compressor} (h : CompressorLegal mcs c) : c.cur ≠ [] := by
  intro e
  have := h.cur_key
  rw [e, h.key_ne_nil] at this
  cases this

/-- An insertion keeps the invariant (R156). -/
theorem CompressorLegal.insert {mcs : Nat} {c : Compressor} (h : CompressorLegal mcs c) {k : Byte} (hk : k.toNat < 2 ^ mcs)
    (hn : c.nextCode < 4096) : CompressorLegal mcs (setCur [k] (insertEntry k c)) := by
  have hw := widen_spec (next := c.nextCode + 1) h.size_le (by have := h.next_fits; omega) hn
  have hge := h.next_ge
  have hlit : ∀ v : Byte, v.toNat < 2 ^ mcs → (insertEntry k c).dict.lookup [v] = some v.toNat := by
    intro v hv
    rw [insertEntry_lookup, if_neg, h.literal v hv]
    intro e
    have := congrArg List.length e
    simp [h.cur_ne_nil] at this
  have hold : ∀ {seq : List Byte}, (c.dict.lookup seq).isSome = true → ((insertEntry k c).dict.lookup seq).isSome = true := by
    intro seq hs
    rw [insertEntry_lookup]
    split
    · rfl
    · exact hs
  -- a key of the new dictionary is the new one or an old one
  have hnew : ∀ {seq : List Byte} {code : Nat}, (insertEntry k c).dict.lookup seq = some code →
      seq = c.cur ++ [k] ∧ code = c.nextCode ∨ c.dict.lookup seq = some code := by
    intro seq code hs
    rw [insertEntry_lookup] at hs
    split at hs
    · next e => exact .inl ⟨e, (Option.some.inj hs).symm⟩
    · exact .inr hs
  refine
    { size_ge := le_trans h.size_ge hw.1
      size_le := hw.2.1
      next_ge := le_trans hge (Nat.le_succ _)
      next_le := hn
      next_fits := hw.2.2
      code_lt := ?_
      code_plain := ?_
      code_injective := ?_
      literal := hlit
      key_ne_nil := ?_
      key_prefix := ?_
      cur_key := by rw [Option.isSome_iff_exists]; exact ⟨_, hlit k hk⟩ }
  · intro seq code hs
    show code < c.nextCode + 1
    rcases hnew hs with ⟨_, rfl⟩ | hs
    · omega
    · have := h.code_lt _ _ hs
      omega
  · intro seq code hs
    rcases hnew hs with ⟨_, rfl⟩ | hs
    · omega
    · exact h.code_plain _ _ hs
  · intro seq seq' code hs hs'
    rcases hnew hs with ⟨rfl, rfl⟩ | hs <;> rcases hnew hs' with ⟨rfl, e⟩ | hs'
    · rfl
    · exact absurd (h.code_lt _ _ hs') (lt_irrefl _)
    · exact absurd (e ▸ h.code_lt _ _ hs) (lt_irrefl _)
    · exact h.code_injective _ _ _ hs hs'
  · show (insertEntry k c).dict.lookup [] = none
    rw [insertEntry_lookup, if_neg (by simp), h.key_ne_nil]
  · intro seq j hne hs
    obtain ⟨code, hs⟩ := Option.isSome_iff_exists.mp hs
    rcases hnew hs with ⟨e, _⟩ | hs
    · rw [(List.append_inj' e rfl).1]
      exact hold h.cur_key
    · exact hold (h.key_prefix seq j hne (by rw [hs]; rfl))

/-- The code of the current match is the value of a key. -/
theorem CompressorLegal.cur_lookup {mcs : Nat} {c : Compressor} (h : CompressorLegal mcs c) :
    c.dict.lookup c.cur = some (dictCode c.dict c.cur) := by
  obtain ⟨x, hx⟩ := Option.isSome_iff_exists.mp h.cur_key
  unfold dictCode
  rw [hx]
  rfl

/-- The code of the current match is one already assigned. -/
theorem CompressorLegal.code_of_cur {mcs : Nat} {c : Compressor} (h : CompressorLegal mcs c) :
    dictCode c.dict c.cur < c.nextCode := h.code_lt _ _ h.cur_lookup

/-- A code assigned so far fits the current width. -/
theorem CompressorLegal.fits {mcs : Nat} {c : Compressor} (h : CompressorLegal mcs c) {x : Nat} (hx : x < c.nextCode) :
    x < 2 ^ c.codeSize ∧ mcs + 1 ≤ c.codeSize ∧ c.codeSize ≤ 12 ∧ x < 4096 :=
  ⟨lt_of_lt_of_le hx h.next_fits, h.size_ge, h.size_le, lt_of_lt_of_le hx h.next_le⟩

/-- A code below clear is a literal: only the sequence of that one index has it (R151; R162 item 7). -/
theorem CompressorLegal.literal_only {mcs : Nat} (h8 : mcs ≤ 8) {c : Compressor} (h : CompressorLegal mcs c) {seq : List Byte}
    {code : Nat} (hs : c.dict.lookup seq = some code) (hc : code < 2 ^ mcs) : seq = [BitVec.ofNat 8 code] := by
  have hp : 2 ^ mcs ≤ 2 ^ 8 := Nat.pow_le_pow_right (by omega) h8
  have e : (BitVec.ofNat 8 code).toNat = code := by simp; omega
  exact h.code_injective _ _ code hs (by simpa [e] using h.literal (BitVec.ofNat 8 code) (by rw [e]; exact hc))

/-! ### The codes of the indices still to come -/

/-- From a legal compressor every code emitted fits its width; the last two are the match's, which is neither clear nor eoi, and
eoi, at one width; and there are 2 to 2 + 2·n of them for n indices still to come. -/
theorem codesFrom_spec {mcs : Nat} (h2 : 2 ≤ mcs) (h8 : mcs ≤ 8) : ∀ (ks : List Byte) (c : Compressor),
    CompressorLegal mcs c → (∀ x ∈ ks, x.toNat < 2 ^ mcs) →
    (∀ x ∈ codesFrom mcs c ks, x.1 < 2 ^ x.2 ∧ mcs + 1 ≤ x.2 ∧ x.2 ≤ 12 ∧ x.1 < 4096) ∧
    (∃ init code w, codesFrom mcs c ks = init ++ [(code, w), (eoiCode mcs, w)] ∧ code ≠ 2 ^ mcs ∧ code ≠ 2 ^ mcs + 1) ∧
    2 ≤ (codesFrom mcs c ks).length ∧ (codesFrom mcs c ks).length ≤ 2 + 2 * ks.length
  | [], c, h, _ => by
    refine ⟨?_, ⟨[], _, c.codeSize, rfl, h.code_plain _ _ h.cur_lookup⟩, le_refl _, le_refl _⟩
    intro x hx
    simp [codesFrom] at hx
    rcases hx with rfl | rfl
    · exact h.fits h.code_of_cur
    · exact h.fits h.next_ge
  | k :: ks, c, h, hk => by
    have hk0 := hk k (by simp)
    have hks : ∀ x ∈ ks, x.toNat < 2 ^ mcs := fun x hx => hk x (by simp [hx])
    rw [codesFrom.eq_2]
    split
    · next hm =>
      obtain ⟨a, b, d, e⟩ := codesFrom_spec h2 h8 ks _ (h.extend hm) hks
      exact ⟨a, b, d, by simp; omega⟩
    · split
      · next hn =>
        obtain ⟨a, ⟨i, x, w, b, f⟩, d, e⟩ := codesFrom_spec h2 h8 ks _ (h.insert hk0 hn) hks
        refine ⟨?_, ⟨_ :: i, x, w, by rw [b]; rfl, f⟩, by simp; omega, by simp; omega⟩
        intro x hx
        rcases List.mem_cons.mp hx with rfl | hx
        · exact h.fits h.code_of_cur
        · exact a x hx
      · obtain ⟨a, ⟨i, x, w, b, f⟩, d, e⟩ := codesFrom_spec h2 h8 ks _ (CompressorLegal.reset h2 h8 c hk0) hks
        refine ⟨?_, ⟨_ :: _ :: i, x, w, by rw [b]; rfl, f⟩, by simp, by simp; omega⟩
        intro x hx
        rcases List.mem_cons.mp hx with rfl | hx
        · exact h.fits h.code_of_cur
        · rcases List.mem_cons.mp hx with rfl | hx
          · exact h.fits (show 2 ^ mcs < c.nextCode by have := h.next_ge; omega)
          · exact a x hx

/-- From a legal compressor every code emitted below clear is an index of the match or one still to come (R162 item 7). -/
theorem codesFrom_literal {mcs : Nat} (h2 : 2 ≤ mcs) (h8 : mcs ≤ 8) : ∀ (ks : List Byte) (c : Compressor),
    CompressorLegal mcs c → (∀ x ∈ ks, x.toNat < 2 ^ mcs) →
    ∀ x ∈ codesFrom mcs c ks, x.1 < 2 ^ mcs → ∃ v ∈ c.cur ++ ks, v.toNat = x.1 := by
  intro ks c h hk
  have hcur : ∀ {c : Compressor}, CompressorLegal mcs c → dictCode c.dict c.cur < 2 ^ mcs →
      ∃ v ∈ c.cur, v.toNat = dictCode c.dict c.cur := by
    intro c h hc
    have hp : 2 ^ mcs ≤ 2 ^ 8 := Nat.pow_le_pow_right (by omega) h8
    have e := h.literal_only h8 h.cur_lookup hc
    generalize dictCode c.dict c.cur = code at *
    exact ⟨BitVec.ofNat 8 code, by rw [e]; simp, by simp; omega⟩
  induction ks generalizing c with
  | nil =>
    intro x hx hc
    simp [codesFrom] at hx
    rcases hx with rfl | rfl
    · simpa using hcur h hc
    · exact absurd hc (by simp [eoiCode, clearCode])
  | cons k ks ih =>
    have hk0 := hk k (by simp)
    have hks : ∀ x ∈ ks, x.toNat < 2 ^ mcs := fun x hx => hk x (by simp [hx])
    intro x hx hc
    rw [codesFrom.eq_2] at hx
    have now : x = (dictCode c.dict c.cur, c.codeSize) → ∃ v ∈ c.cur ++ k :: ks, v.toNat = x.1 := by
      rintro rfl
      obtain ⟨v, hv, e⟩ := hcur h hc
      exact ⟨v, List.mem_append_left _ hv, e⟩
    have later : ∀ {c' : Compressor}, c'.cur = [k] → (∃ v ∈ c'.cur ++ ks, v.toNat = x.1) →
        ∃ v ∈ c.cur ++ k :: ks, v.toNat = x.1 := by
      rintro c' e ⟨v, hv, hx⟩
      rw [e] at hv
      exact ⟨v, List.mem_append_right _ hv, hx⟩
    split at hx
    · next hm => simpa [setCur] using ih _ (h.extend hm) hks x hx hc
    · split at hx
      · next hn =>
        rcases List.mem_cons.mp hx with e | hx
        · exact now e
        · exact later rfl (ih _ (h.insert hk0 hn) hks x hx hc)
      · rcases List.mem_cons.mp hx with e | hx
        · exact now e
        · rcases List.mem_cons.mp hx with rfl | hx
          · exact absurd hc (lt_irrefl _)
          · exact later rfl (ih _ (CompressorLegal.reset h2 h8 c hk0) hks x hx hc)

/-! ### LZW_COMPRESS emits its code stream -/

/-- EMIT_CODE with the width given beside the code. -/
def emitAt (z : Lzw) (c : Nat × Nat) : Lzw :=
  emitBytes ((z.pack.bitcnt + c.2) / 8)
    { z with pack := { z.pack with bitbuf := z.pack.bitbuf ||| (c.1 <<< z.pack.bitcnt), bitcnt := z.pack.bitcnt + c.2 } }

theorem emitCode_eq_emitAt (c : Nat) (z : Lzw) : emitCode c z = emitAt z (c, z.comp.codeSize) := rfl

@[simp] theorem emitAt_comp (z : Lzw) (c : Nat × Nat) : (emitAt z c).comp = z.comp := by simp [emitAt]

theorem emitAt_onComp (f : Compressor → Compressor) (z : Lzw) (c : Nat × Nat) :
    emitAt (onComp f z) c = onComp f (emitAt z c) := by
  unfold emitAt
  rw [← emitBytes_onComp]
  rfl

theorem foldl_emitAt_onComp (f : Compressor → Compressor) (l : List (Nat × Nat)) (z : Lzw) :
    l.foldl emitAt (onComp f z) = onComp f (l.foldl emitAt z) := by
  induction l generalizing z with
  | nil => rfl
  | cons c l ih => simp only [List.foldl_cons, emitAt_onComp, ih]

theorem flushBits_onComp (f : Compressor → Compressor) (z : Lzw) : flushBits (onComp f z) = onComp f (flushBits z) := by
  unfold flushBits
  dsimp only
  rw [show (onComp f z).pack = z.pack from rfl, putByte_onComp]
  split <;> rfl

theorem flush_onComp (f : Compressor → Compressor) (z : Lzw) : flush (onComp f z) = onComp f (flush z) := by
  unfold flush
  dsimp only
  rw [flushBits_onComp, show (onComp f (flushBits z)).pack = (flushBits z).pack from rfl]
  split <;> rfl

/-- The indices matched one by one, and TERMINATE, emit the code stream of Sys2Proof/Safety.lean. -/
theorem terminate_foldl (mcs : Nat) : ∀ (ks : List Byte) (z : Lzw),
    ∃ f, terminate mcs (ks.foldl (matchStep mcs) z) = onComp f ((codesFrom mcs z.comp ks).foldl emitAt z)
  | [], z => ⟨id, by simp [terminate, emitCode_eq_emitAt, codesFrom]; rfl⟩
  | k :: ks, z => by
    obtain ⟨f, hf⟩ := terminate_foldl mcs ks (matchStep mcs z k)
    rw [List.foldl_cons, hf, codesFrom.eq_2]
    unfold matchStep
    split
    · exact ⟨fun c => f (setCur (z.comp.cur ++ [k]) c), by rw [foldl_emitAt_onComp]; rfl⟩
    · unfold mismatch tableFull
      dsimp only
      rw [emitCode_comp]
      split
      · rw [emitCode_eq_emitAt]
        refine ⟨fun c => f (setCur [k] (insertEntry k c)), ?_⟩
        rw [foldl_emitAt_onComp, foldl_emitAt_onComp, List.foldl_cons]
        simp only [onComp, emitAt_comp]
      · rw [emitCode_eq_emitAt, emitCode_eq_emitAt, emitAt_comp]
        refine ⟨fun c => f (setCur [k] (dictReset mcs c)), ?_⟩
        rw [foldl_emitAt_onComp, foldl_emitAt_onComp, List.foldl_cons, List.foldl_cons]
        simp only [onComp, emitAt_comp]

/-- The compressor and packer at the start, with the minimum-code-size byte written (43_lzw_compressor.md R161). -/
def packerStart (mcs : Nat) : Lzw :=
  { comp := Work.empty.comp, pack := { bitbuf := 0, bitcnt := 0, sb := [] }, appended := [BitVec.ofNat 8 mcs] }

/-- LZW_COMPRESS writes what the packer makes of the code stream. -/
theorem lzwCompress_appended {mcs : Nat} (h2 : 2 ≤ mcs) (first : Byte) (rest : List Byte) (c : Compressor) :
    (lzwCompress mcs first rest c).appended = (flush ((lzwCodes mcs first rest).foldl emitAt (packerStart mcs))).appended := by
  have hm : minCodeSize mcs = mcs := by unfold minCodeSize; omega
  have hflush : ∀ f z, (flush (onComp f z)).appended = (flush z).appended := fun f z => by rw [flush_onComp]; rfl
  have hc : (lzwStart mcs first Work.empty.comp).comp = freshCompressor mcs first := by
    simp [lzwStart, onComp, freshCompressor]
  rw [lzwCompress_of_state mcs first rest c Work.empty.comp]
  unfold lzwCompress
  dsimp only
  rw [hm]
  obtain ⟨f, hf⟩ := terminate_foldl mcs rest (lzwStart mcs first Work.empty.comp)
  rw [hf, hflush, hc]
  unfold lzwStart lzwCodes
  rw [foldl_emitAt_onComp, hflush, List.foldl_cons, emitCode_eq_emitAt]
  have : ({ comp := dictReset mcs Work.empty.comp, pack := { bitbuf := 0, bitcnt := 0, sb := [] },
            appended := [BitVec.ofNat 8 mcs] } : Lzw) = onComp (dictReset mcs) (packerStart mcs) := rfl
  rw [this, emitAt_onComp, foldl_emitAt_onComp, hflush]
  rfl

/-! ### The packer -/

/-- The n low bits of a number, least significant first. -/
def lowBits (n b : Nat) : List Bool := (List.range n).map fun i => b.testBit i

@[simp] theorem lowBits_length (n b : Nat) : (lowBits n b).length = n := by simp [lowBits]

/-- The bits of data bytes, bit 0 of the first byte first (20_memory.md R58). -/
def dataBits (data : List Byte) : List Bool := data.flatMap fun b => lowBits 8 b.toNat

/-- The full sub-blocks of data bytes; what is left over is shorter than 255. -/
def fullBlocks (data : List Byte) : List Byte :=
  (List.range (data.length / 255)).flatMap fun i => subBlock ((data.drop (255 * i)).take 255)

/-- The packer after it has been given the bits bs: the data bytes made of them so far, in sub-blocks, and the bits still
pending (43_lzw_compressor.md R153, R154). -/
structure Packed (mcs : Nat) (bs : List Bool) (z : Lzw) (data : List Byte) : Prop where
  blocks : z.appended = BitVec.ofNat 8 mcs :: fullBlocks data
  partialBlock : z.pack.sb = data.drop (255 * (data.length / 255))
  bits : bs = dataBits data ++ lowBits z.pack.bitcnt z.pack.bitbuf
  pending : z.pack.bitbuf < 2 ^ z.pack.bitcnt

/-- Nothing packed yet. -/
theorem packed_start (mcs : Nat) : Packed mcs [] (packerStart mcs) [] := ⟨rfl, rfl, rfl, by simp [packerStart]⟩

/-- PUT_BYTE adds one data byte, and writes a sub-block exactly when it is the 255th (R154). -/
theorem putByte_data {m : Nat} {z : Lzw} {data : List Byte} (x : Byte)
    (ha : z.appended = BitVec.ofNat 8 m :: fullBlocks data) (hb : z.pack.sb = data.drop (255 * (data.length / 255))) :
    (putByte x z).appended = BitVec.ofNat 8 m :: fullBlocks (data ++ [x]) ∧
      (putByte x z).pack.sb = (data ++ [x]).drop (255 * ((data ++ [x]).length / 255)) := by
  have hsb : (z.pack.sb ++ [x]).length = data.length % 255 + 1 := by
    rw [hb]
    simp
    omega
  have hfull : ∀ n, 255 * n ≤ data.length →
      ((List.range n).flatMap fun i => subBlock (((data ++ [x]).drop (255 * i)).take 255)) =
        (List.range n).flatMap fun i => subBlock ((data.drop (255 * i)).take 255) := by
    intro n hn
    apply List.flatMap_congr
    intro i hi
    have : 255 * i + 255 ≤ data.length := by simp at hi; omega
    rw [List.drop_append_of_le_length (by omega), List.take_append_of_le_length (by simp; omega)]
  have hdrop : (data ++ [x]).drop (255 * (data.length / 255)) = data.drop (255 * (data.length / 255)) ++ [x] :=
    List.drop_append_of_le_length (by omega)
  unfold putByte
  dsimp only
  split
  · next hl =>
    rw [hsb, subblockMax] at hl
    have hlen : (data ++ [x]).length / 255 = data.length / 255 + 1 := by simp; omega
    constructor
    · dsimp only
      rw [ha, fullBlocks, fullBlocks, hlen, List.range_succ, List.flatMap_append, hfull _ (by omega), hb]
      simp only [List.cons_append, List.flatMap_cons, List.flatMap_nil, List.append_nil, hdrop]
      rw [List.take_of_length_le (by simp; omega)]
    · dsimp only
      rw [hlen, eq_comm]
      apply List.drop_eq_nil_of_le
      simp
      omega
  · next hl =>
    rw [hsb, subblockMax] at hl
    have hlen : (data ++ [x]).length / 255 = data.length / 255 := by simp; omega
    constructor
    · dsimp only
      rw [ha, fullBlocks, fullBlocks, hlen, hfull _ (by omega)]
    · dsimp only
      rw [hlen, hb, hdrop]

theorem lowBits_add (n m b : Nat) : lowBits (n + m) b = lowBits n b ++ lowBits m (b >>> n) := by
  unfold lowBits
  rw [List.range_add, List.map_append, List.map_map]
  congr 1
  apply List.map_congr_left
  intro i _
  simp [Nat.testBit_shiftRight]

theorem lowBits_mod (n b : Nat) : lowBits n (b % 2 ^ n) = lowBits n b := by
  unfold lowBits
  apply List.map_congr_left
  intro i hi
  simp at hi
  simp [Nat.testBit_mod_two_pow, hi]

/-- One round of EMIT_CODE's loop consumes eight pending bits (R153). -/
theorem emitLowByte_pack (z : Lzw) :
    (emitLowByte z).pack.bitcnt = z.pack.bitcnt - 8 ∧ (emitLowByte z).pack.bitbuf = z.pack.bitbuf >>> 8 := by
  unfold emitLowByte putByte
  dsimp only
  split <;> exact ⟨rfl, rfl⟩

theorem and_low_byte (b : Nat) : b &&& 0xFF = b % 2 ^ 8 := Nat.and_two_pow_sub_one_eq_mod b 8

/-- One round of EMIT_CODE's loop makes one data byte of eight pending bits. -/
theorem Packed.emitLowByte {mcs : Nat} {bs : List Bool} {z : Lzw} {data : List Byte} (h : Packed mcs bs z data)
    (h8 : 8 ≤ z.pack.bitcnt) : ∃ data', Packed mcs bs (Machine.emitLowByte z) data' := by
  obtain ⟨hcnt, hbuf⟩ := emitLowByte_pack z
  have hp := putByte_data (BitVec.ofNat 8 (z.pack.bitbuf &&& 0xFF)) h.blocks h.partialBlock
  have e : z.pack.bitcnt = 8 + (z.pack.bitcnt - 8) := by omega
  refine ⟨data ++ [BitVec.ofNat 8 (z.pack.bitbuf &&& 0xFF)], hp.1, hp.2, ?_, ?_⟩
  · have e3 : (BitVec.ofNat 8 (z.pack.bitbuf &&& 0xFF)).toNat = z.pack.bitbuf % 2 ^ 8 := by rw [and_low_byte]; simp
    rw [hcnt, hbuf, h.bits]
    conv_lhs => rw [e, lowBits_add]
    unfold dataBits
    rw [List.flatMap_append, List.flatMap_cons, List.flatMap_nil, e3, lowBits_mod]
    simp
  · rw [hcnt, hbuf, Nat.shiftRight_eq_div_pow]
    apply Nat.div_lt_of_lt_mul
    rw [← Nat.pow_add, ← e]
    exact h.pending

/-- EMIT_CODE's loop. -/
theorem Packed.emitBytes {mcs : Nat} {bs : List Bool} : ∀ (n : Nat) {z : Lzw} {data : List Byte}, Packed mcs bs z data →
    8 * n ≤ z.pack.bitcnt →
    ∃ data', Packed mcs bs (Machine.emitBytes n z) data' ∧ (Machine.emitBytes n z).pack.bitcnt = z.pack.bitcnt - 8 * n
  | 0, z, data, h, _ => ⟨data, h, rfl⟩
  | n + 1, z, data, h, hn => by
    obtain ⟨d', h'⟩ := h.emitLowByte (by omega)
    have hcnt := (emitLowByte_pack z).1
    obtain ⟨d'', h'', e⟩ := Packed.emitBytes n h' (by omega)
    exact ⟨d'', h'', by unfold Machine.emitBytes; omega⟩

/-- EMIT_CODE adds the code's bits after those already given (R153; 20_memory.md R58). -/
theorem Packed.emitAt {mcs : Nat} {bs : List Bool} {z : Lzw} {data : List Byte} (h : Packed mcs bs z data) {c : Nat × Nat}
    (hc : c.1 < 2 ^ c.2) :
    ∃ data', Packed mcs (bs ++ lowBits c.2 c.1) (Machine.emitAt z c) data' ∧ (Machine.emitAt z c).pack.bitcnt < 8 := by
  have hr : Packed mcs (bs ++ lowBits c.2 c.1)
      { z with
        pack := { z.pack with bitbuf := z.pack.bitbuf ||| (c.1 <<< z.pack.bitcnt), bitcnt := z.pack.bitcnt + c.2 } } data := by
    refine ⟨h.blocks, h.partialBlock, ?_, ?_⟩
    · dsimp only
      rw [h.bits, List.append_assoc, lowBits_add]
      congr 2
      · unfold lowBits
        apply List.map_congr_left
        intro i hi
        simp at hi
        rw [Nat.testBit_or, Nat.testBit_shiftLeft]
        have : ¬ z.pack.bitcnt ≤ i := by omega
        simp [this]
      · congr 1
        apply Nat.eq_of_testBit_eq
        intro i
        rw [Nat.testBit_shiftRight, Nat.testBit_or, Nat.testBit_shiftLeft]
        have : z.pack.bitbuf.testBit (z.pack.bitcnt + i) = false :=
          Nat.testBit_lt_two_pow (lt_of_lt_of_le h.pending (Nat.pow_le_pow_right (by omega) (by omega)))
        simp [this]
    · dsimp only
      apply Nat.or_lt_two_pow
      · exact lt_of_lt_of_le h.pending (Nat.pow_le_pow_right (by omega) (by omega))
      · rw [Nat.shiftLeft_eq, Nat.pow_add, Nat.mul_comm]
        exact Nat.mul_lt_mul_of_pos_left hc (Nat.two_pow_pos _)
  obtain ⟨d', h', e⟩ := Packed.emitBytes ((z.pack.bitcnt + c.2) / 8) hr (by dsimp only; omega)
  refine ⟨d', h', ?_⟩
  unfold Machine.emitAt
  rw [e]
  dsimp only
  omega

/-- A whole code stream emitted. -/
theorem Packed.foldl_emitAt {mcs : Nat} : ∀ (l : List (Nat × Nat)) {bs : List Bool} {z : Lzw} {data : List Byte},
    Packed mcs bs z data → z.pack.bitcnt < 8 → (∀ c ∈ l, c.1 < 2 ^ c.2) →
    ∃ data', Packed mcs (bs ++ codeBits l) (l.foldl Machine.emitAt z) data' ∧ (l.foldl Machine.emitAt z).pack.bitcnt < 8
  | [], bs, z, data, h, hb, _ => ⟨data, by simpa [codeBits] using h, hb⟩
  | c :: l, bs, z, data, h, hb, hl => by
    obtain ⟨d, h1, h2⟩ := h.emitAt (hl c (by simp))
    obtain ⟨d', h3, h4⟩ := Packed.foldl_emitAt l h1 h2 fun c hc => hl c (by simp [hc])
    have e : bs ++ codeBits (c :: l) = bs ++ lowBits c.2 c.1 ++ codeBits l := by simp [codeBits, lowBits]
    exact ⟨d', by rw [e]; exact h3, h4⟩

/-! ### Bits and bytes -/

@[simp] theorem dataBits_length (data : List Byte) : (dataBits data).length = 8 * data.length := by
  induction data with
  | nil => rfl
  | cons b d ih =>
    simp [dataBits] at *
    omega

/-- Byte i of the bits of data bytes is data byte i. -/
theorem bitsByte_dataBits {data : List Byte} (tail : List Bool) {i : Nat} {b : Byte} (hi : data[i]? = some b) :
    bitsByte (dataBits data ++ tail) i = b := by
  have key : ∀ j, j < 8 → (dataBits data ++ tail).getD (8 * i + j) false = b.toNat.testBit j := by
    intro j hj
    have hlen := (List.getElem?_eq_some_iff.mp hi).1
    rw [List.getD_eq_getElem?_getD, List.getElem?_append_left (by rw [dataBits_length]; omega)]
    clear tail
    induction data generalizing i with
    | nil => simp at hi
    | cons x d ih =>
      have hx : dataBits (x :: d) = lowBits 8 x.toNat ++ dataBits d := rfl
      rw [hx]
      cases i with
      | zero =>
        simp at hi
        subst hi
        rw [List.getElem?_append_left (by simp; omega)]
        simp [lowBits, hj]
      | succ i =>
        rw [List.getElem?_append_right (by simp; omega)]
        have e : 8 * (i + 1) + j - (lowBits 8 x.toNat).length = 8 * i + j := by simp; omega
        rw [e]
        exact ih (by simpa using hi) (by simpa using hlen)
  unfold bitsByte
  have e : ((List.range 8).map fun j => if (dataBits data ++ tail).getD (8 * i + j) false then 2 ^ j else 0) =
      (List.range 8).map fun j => if b.toNat.testBit j then 2 ^ j else 0 := by
    apply List.map_congr_left
    intro j hj
    rw [key j (by simpa using hj)]
  rw [e]
  have all : ∀ b : Byte, BitVec.ofNat 8 ((List.range 8).map fun j => if b.toNat.testBit j then 2 ^ j else 0).sum = b := by
    decide
  exact all b

/-- The bits of data bytes pack into those bytes. -/
theorem packedBytes_dataBits (data : List Byte) : packedBytes (dataBits data) = data := by
  apply List.ext_getElem?
  intro i
  have hc : ceilDiv (dataBits data).length 8 = data.length := by
    rw [dataBits_length]
    unfold ceilDiv
    omega
  unfold packedBytes
  rw [hc]
  by_cases hi : i < data.length
  · have := bitsByte_dataBits (data := data) [] (i := i) (b := data[i]) (by simp [hi])
    rw [List.append_nil] at this
    simp [hi, this]
  · simp [hi]

/-- Zeros past the end change no byte. -/
theorem bitsByte_append_zeros (bs : List Bool) (k i : Nat) : bitsByte (bs ++ List.replicate k false) i = bitsByte bs i := by
  unfold bitsByte
  congr 2
  apply List.map_congr_left
  intro j _
  congr 2
  rw [List.getD_eq_getElem?_getD, List.getD_eq_getElem?_getD]
  rcases Nat.lt_or_ge (8 * i + j) bs.length with h | h
  · rw [List.getElem?_append_left h]
  · rw [List.getElem?_append_right h, List.getElem?_eq_none h, List.getElem?_replicate]
    split <;> rfl

/-- Pending bits pack into one last byte, with zeros above them (R159). -/
theorem packedBytes_pending (data : List Byte) {n b : Nat} (h0 : 0 < n) (h8 : n < 8) (hb : b < 2 ^ n) :
    packedBytes (dataBits data ++ lowBits n b) = data ++ [BitVec.ofNat 8 b] := by
  have hb8 : b < 2 ^ 8 := lt_of_lt_of_le hb (Nat.pow_le_pow_right (by omega) (by omega))
  have hpad : lowBits 8 b = lowBits n b ++ List.replicate (8 - n) false := by
    have e8 : n + (8 - n) = 8 := by omega
    rw [← e8, lowBits_add, Nat.shiftRight_eq_div_pow, Nat.div_eq_of_lt hb, e8]
    congr 1
    unfold lowBits
    apply List.ext_getElem <;> simp
  have e : dataBits data ++ lowBits n b ++ List.replicate (8 - n) false = dataBits (data ++ [BitVec.ofNat 8 b]) := by
    rw [List.append_assoc, ← hpad]
    unfold dataBits
    rw [List.flatMap_append, List.flatMap_cons, List.flatMap_nil, List.append_nil]
    congr 2
    simp
    omega
  have h2 := packedBytes_dataBits (data ++ [BitVec.ofNat 8 b])
  rw [← e] at h2
  rw [← h2]
  have hl1 : ceilDiv (dataBits data ++ lowBits n b).length 8 = data.length + 1 := by
    rw [List.length_append, dataBits_length, lowBits_length]
    unfold ceilDiv
    omega
  have hl2 : ceilDiv (dataBits data ++ lowBits n b ++ List.replicate (8 - n) false).length 8 = data.length + 1 := by
    rw [List.length_append, List.length_append, dataBits_length, lowBits_length, List.length_replicate]
    unfold ceilDiv
    omega
  unfold packedBytes
  rw [hl1, hl2]
  apply List.map_congr_left
  intro i _
  rw [bitsByte_append_zeros]

end Sys2Proof.Machine
end

