-- ==== Sys2Proof/Laws/Ops.lean ====
section
/-! SUPPORT. What each shared operation can do, said once. -/

namespace Sys2Proof.Machine

/-- What fits (20_memory.md R53): OUT_CAPACITY is unbounded or not exceeded. -/
theorem State.fits_iff (s : State) (n : Nat) : s.fits n = true ↔ ∀ c, s.params.outCapacity = some c → s.outLen + n ≤ c := by
  unfold State.fits
  cases h : s.params.outCapacity <;> simp

theorem State.fits_unbounded (s : State) (n : Nat) (h : s.params.outCapacity = none) : s.fits n = true := by
  simp [State.fits_iff, h]

@[simp] theorem State.appendOut_outRead (s : State) (bs : List Byte) : (s.appendOut bs).outRead = s.outRead ++ bs := by
  simp [State.outRead]

@[simp] theorem State.appendOut_outLen (s : State) (bs : List Byte) : (s.appendOut bs).outLen = s.outLen + bs.length := by
  simp [State.outLen]

/-- An append that fits goes on with the bytes added. -/
theorem appendThen_fits {bs : List Byte} {s : State} (k : State → Result) (h : s.fits bs.length = true) :
    appendThen bs s k = k (s.appendOut bs) := by simp [appendThen, h]

/-- An append that does not fit raises CAPACITY. -/
theorem appendThen_full {bs : List Byte} {s : State} (k : State → Result) (h : s.fits bs.length = false) :
    appendThen bs s k = raiseAppendCapacity s := by simp [appendThen, h]

/-- Everything an append can do. -/
theorem appendThen_cases (bs : List Byte) (s : State) (k : State → Result) :
    (s.fits bs.length = true ∧ appendThen bs s k = k (s.appendOut bs)) ∨
    (s.fits bs.length = false ∧ appendThen bs s k = raiseAppendCapacity s) := by
  cases h : s.fits bs.length
  · exact .inr ⟨rfl, appendThen_full k h⟩
  · exact .inl ⟨rfl, appendThen_fits k h⟩

/-- Appending in two parts is appending at once, CAPACITY included (R204: what the first part left is unspecified anyway). So it
does not matter into how many appends a unit's bytes are cut (assumption log 14). -/
theorem appendThen_append (xs ys : List Byte) (s : State) (k : State → Result) :
    appendThen xs s (fun s' => appendThen ys s' k) = appendThen (xs ++ ys) s k := by
  have hcap : ∀ n, (s.appendOut xs).fits n = s.fits (xs.length + n) := by
    intro n
    cases h : s.params.outCapacity <;> simp [State.fits, h, Nat.add_assoc]
  have hraise : raiseAppendCapacity (s.appendOut xs) = raiseAppendCapacity s := rfl
  have hout : (s.appendOut xs).appendOut ys = s.appendOut (xs ++ ys) := by
    simp [State.appendOut, Memory.append_append]
  rcases appendThen_cases xs s (fun s' => appendThen ys s' k) with ⟨hx, hxe⟩ | ⟨hx, hxe⟩
  · rw [hxe]
    cases hy : s.fits (xs ++ ys).length
    · rw [appendThen_full k hy, appendThen_full k (by rw [hcap]; simpa using hy), hraise]
    · rw [appendThen_fits k hy, appendThen_fits k (by rw [hcap]; simpa using hy), hout]
  · have hxy : s.fits (xs ++ ys).length = false := by
      cases h : s.params.outCapacity with
      | none => simp [State.fits, h] at hx
      | some c =>
        simp only [State.fits, h, decide_eq_false_iff_not, Nat.not_le] at hx ⊢
        simp only [List.length_append]
        omega
    rw [hxe, appendThen_full k hxy]

/-- Everything accepting a command can do. -/
theorem accept_cases (s : State) (k : State → Result) :
    (s.status.fault = .none ∧ accept s k = k s) ∨ (s.status.fault ≠ .none ∧ accept s k = .next s) := by
  unfold accept
  split
  · next h => exact .inl ⟨h, rfl⟩
  · next h => exact .inr ⟨h, rfl⟩

theorem accept_of_none {s : State} (h : s.status.fault = .none) (k : State → Result) : accept s k = k s := by
  simp [accept, h]

theorem accept_of_fault {s : State} (h : s.status.fault ≠ .none) (k : State → Result) : accept s k = .next s := by
  simp [accept, h]

/-- Fault entry, as an equation. -/
theorem raiseFault_eq (f : FaultCode) (s : State) :
    raiseFault f s = .next ((s.setStatus (s.status.withFault f)).respond (faultResponse f)) := rfl

/-- Fault entry for a CAPACITY raised by an append: which fields it leaves alone, and what the others become. -/
theorem raiseAppendCapacity_spec (s : State) :
    ∃ t, raiseAppendCapacity s = .next t ∧
      t.status.fault = .capacity ∧ t.status.cfg = s.status.cfg ∧ t.status.fin = s.status.fin ∧
      t.width = s.width ∧ t.height = s.height ∧ t.delayMs = s.delayMs ∧
      t.pix = s.pix ∧ t.inputs = s.inputs ∧ t.params = s.params ∧
      t.responses = s.responses ++ [faultResponse .capacity] ∧ Memory.wf t.out = true :=
  ⟨_, rfl, rfl, rfl, rfl, rfl, rfl, rfl, rfl, rfl, rfl, rfl, Memory.wf_ofBytes _⟩

/-- A CAPACITY raised after some appends and a change of STATUS.HDR is the CAPACITY raised before them. -/
theorem raiseAppendCapacity_of_partial (s : State) (bs : List Byte) (v : Bool) :
    raiseAppendCapacity ((s.appendOut bs).setStatus (s.status.withHdr v)) = raiseAppendCapacity s := rfl

@[simp] theorem afterNext_next (f : State → State) (s : State) : afterNext f (.next s) = .next (f s) := rfl

/-- An outcome changed by f is a next state exactly if it was one. -/
theorem afterNext_eq_next {f : State → State} {o : Result} {t : State} (h : afterNext f o = .next t) :
    ∃ u, o = .next u ∧ t = f u := by
  cases o <;> simp_all [afterNext]

end Sys2Proof.Machine
end

