-- ==== Sys2Proof/Laws/Quantizer.lean ====
section
/-! SUPPORT. palette_quantizer: what each of its operations gives, said once. -/

namespace Sys2Proof.Machine

/-! ### Pixels and samples -/

/-- The colours of a buffer of n pixels: how many there are, and each of them (20_memory.md R55). -/
theorem pixels_spec : ∀ (n : Nat) (bs : List Byte), bs.length = 4 * n →
    (pixels bs).length = n ∧
    ∀ p < n, (pixels bs)[p]? = some
      { r := bs.getD (4 * p) 0#8, g := bs.getD (4 * p + 1) 0#8, b := bs.getD (4 * p + 2) 0#8 }
  | 0, bs, h => by
    have : bs = [] := List.length_eq_zero_iff.mp (by simpa using h)
    subst this
    exact ⟨rfl, by omega⟩
  | n + 1, bs, h => by
    match bs, h with
    | [], h => simp at h
    | [_], h => simp at h; omega
    | [_, _], h => simp at h; omega
    | [_, _, _], h => simp at h; omega
    | a :: b :: c :: d :: l, h =>
      obtain ⟨h1, h2⟩ := pixels_spec n l (by simp at h; omega)
      refine ⟨by simp [pixels, h1], ?_⟩
      intro p hp
      cases p with
      | zero => rfl
      | succ p => simpa [pixels, Nat.mul_add] using h2 p (by omega)

/-- A strided selection, element by element. -/
theorem everyNth_getElem? {α : Type} (step : Nat) (hs : 1 ≤ step) :
    ∀ (l : List α) (skip k : Nat), (everyNth step skip l)[k]? = l[skip + k * step]?
  | [], skip, k => by cases skip <;> simp [everyNth]
  | x :: xs, 0, 0 => by simp [everyNth]
  | x :: xs, 0, k + 1 => by
    have e : 0 + (k + 1) * step = (step - 1 + k * step) + 1 := by rw [Nat.add_mul]; omega
    rw [everyNth, e]
    simpa using everyNth_getElem? step hs xs (step - 1) k
  | x :: xs, skip + 1, k => by
    have e : skip + 1 + k * step = (skip + k * step) + 1 := by omega
    rw [everyNth, everyNth_getElem? step hs xs skip k, e, List.getElem?_cons_succ]

/-- A strided selection from position 0 of a non-empty list is not empty. -/
theorem everyNth_eq_nil_iff {α : Type} (step : Nat) (l : List α) : everyNth step 0 l = [] ↔ l = [] := by
  cases l <;> simp [everyNth]

/-- There are no samples exactly if there are no pixels (41_palette_quantizer.md R100). -/
theorem sample_eq_nil_iff (p : Nat) (px : List Rgb) : sample p px = [] ↔ px = [] := everyNth_eq_nil_iff _ _

/-! ### Ranges and SELECT -/

/-- A channel is an 8-bit value. -/
theorem Rgb.channel_le (s : Rgb) (c : Channel) : s.channel c ≤ 255 := by
  cases c <;> simp [Rgb.channel] <;> omega

/-- A fold of max gives an upper bound that is the start or a member. -/
theorem foldl_max_spec : ∀ (l : List Nat) (a : Nat),
    (∀ x ∈ l, x ≤ l.foldl max a) ∧ a ≤ l.foldl max a ∧ (l.foldl max a = a ∨ l.foldl max a ∈ l)
  | [], a => by simp
  | x :: xs, a => by
    obtain ⟨h1, h2, h3⟩ := foldl_max_spec xs (max a x)
    simp only [List.foldl_cons, List.mem_cons]
    refine ⟨?_, le_trans (le_max_left _ _) h2, ?_⟩
    · rintro y (rfl | hy)
      · exact le_trans (le_max_right _ _) h2
      · exact h1 y hy
    · rcases h3 with h3 | h3
      · rw [h3]
        rcases max_cases a x with ⟨h, _⟩ | ⟨h, _⟩
        · exact .inl h
        · exact .inr (.inl h)
      · exact .inr (.inr h3)

/-- A fold of min gives a lower bound that is the start or a member. -/
theorem foldl_min_spec : ∀ (l : List Nat) (a : Nat),
    (∀ x ∈ l, l.foldl min a ≤ x) ∧ l.foldl min a ≤ a ∧ (l.foldl min a = a ∨ l.foldl min a ∈ l)
  | [], a => by simp
  | x :: xs, a => by
    obtain ⟨h1, h2, h3⟩ := foldl_min_spec xs (min a x)
    simp only [List.foldl_cons, List.mem_cons]
    refine ⟨?_, le_trans h2 (min_le_left _ _), ?_⟩
    · rintro y (rfl | hy)
      · exact le_trans h2 (min_le_right _ _)
      · exact h1 y hy
    · rcases h3 with h3 | h3
      · rw [h3]
        rcases min_cases a x with ⟨h, _⟩ | ⟨h, _⟩
        · exact .inl h
        · exact .inr (.inl h)
      · exact .inr (.inr h3)

/-- What SELECT compares: the three ranges of every bucket of two members or more (41_palette_quantizer.md R103). -/
theorem mem_splitCandidates : ∀ (bs : List Bucket) (j0 : Nat) (x : Nat × Nat × Channel),
    x ∈ splitCandidates j0 bs ↔
      ∃ k b, bs[k]? = some b ∧ 2 ≤ b.length ∧ x = (bucketRange b x.2.2, j0 + k, x.2.2)
  | [], j0, x => by simp [splitCandidates]
  | b :: bs, j0, x => by
    rw [splitCandidates, List.mem_append, mem_splitCandidates bs (j0 + 1) x]
    constructor
    · rintro (h | ⟨k, b', h1, h2, h3⟩)
      · split at h
        · next hb =>
          refine ⟨0, b, rfl, hb, ?_⟩
          simp at h
          rcases h with rfl | rfl | rfl <;> simp
        · simp at h
      · exact ⟨k + 1, b', by simpa using h1, h2, by rw [h3]; simp; omega⟩
    · rintro ⟨k, b', h1, h2, h3⟩
      cases k with
      | zero =>
        simp at h1
        subst h1
        left
        rw [if_pos h2, h3]
        cases x.2.2 <;> simp
      | succ k => exact .inr ⟨k, b', by simpa using h1, h2, by rw [h3]; simp; omega⟩

/-- Everything SELECT's scan can do: keep what it had, or take a candidate wider than all before it and as wide as all after. -/
theorem widest_cases : ∀ (l : List (Nat × Nat × Channel)) (best : Nat) (found : Option (Nat × Channel)),
    (widest best found l = found ∧ ∀ x ∈ l, x.1 ≤ best) ∨
    (∃ pre r j c post, l = pre ++ (r, j, c) :: post ∧ widest best found l = some (j, c) ∧ best < r ∧
      (∀ x ∈ pre, x.1 < r) ∧ ∀ x ∈ post, x.1 ≤ r)
  | [], best, found => by simp [widest]
  | (r, j, c) :: rest, best, found => by
    unfold widest
    split
    · next h =>
      rcases widest_cases rest r (some (j, c)) with ⟨h1, h2⟩ | ⟨pre, r', j', c', post, rfl, h2, h3, h4, h5⟩
      · exact .inr ⟨[], r, j, c, rest, rfl, h1, h, by simp, h2⟩
      · refine .inr ⟨(r, j, c) :: pre, r', j', c', post, rfl, h2, by omega, ?_, h5⟩
        simpa using ⟨h3, fun a b d hx => h4 (a, b, d) hx⟩
    · next h =>
      rcases widest_cases rest best found with ⟨h1, h2⟩ | ⟨pre, r', j', c', post, rfl, h2, h3, h4, h5⟩
      · exact .inl ⟨h1, by simpa using ⟨by omega, fun a b d hx => h2 (a, b, d) hx⟩⟩
      · refine .inr ⟨(r, j, c) :: pre, r', j', c', post, rfl, h2, h3, ?_, h5⟩
        simpa using ⟨by omega, fun a b d hx => h4 (a, b, d) hx⟩

/-! ### The stable sort of SPLIT -/

/-- Gathering the members of each value of a list of values reorders the members that have such a value. -/
theorem flatMap_filter_perm (b : Bucket) (f : Rgb → Nat) : ∀ l : List Nat, l.Nodup →
    (l.flatMap fun v => b.filter fun s => Nat.beq (f s) v).Perm (b.filter fun s => decide (f s ∈ l))
  | [], _ => by simp
  | v :: l, h => by
    rw [List.flatMap_cons]
    have hv := (List.nodup_cons.mp h).1
    refine ((flatMap_filter_perm b f l (List.nodup_cons.mp h).2).append_left _).trans ?_
    induction b with
    | nil => simp
    | cons x b ih =>
      by_cases hx : f x = v
      · have : f x ∉ l := hx ▸ hv
        simp [hx, hv] at ih ⊢
        exact ih
      · have hne : Nat.beq (f x) v = false := by
          rw [Bool.eq_false_iff]
          exact fun e => hx (Nat.eq_of_beq_eq_true e)
        by_cases hm : f x ∈ l
        · simp [hne, hm, hx] at ih ⊢
          exact List.perm_middle.trans (ih.cons x)
        · simp [hne, hm, hx] at ih ⊢
          exact ih

/-- The sort keeps the members (41_palette_quantizer.md R105). -/
theorem sortByChannel_perm (b : Bucket) (c : Channel) : (sortByChannel b c).Perm b := by
  refine (flatMap_filter_perm b (·.channel c) _ List.nodup_range).trans ?_
  rw [List.filter_eq_self.mpr]
  intro a _
  have := a.channel_le c
  simp
  omega

/-- The sort is ascending. -/
theorem sortByChannel_ascending (b : Bucket) (c : Channel) :
    (sortByChannel b c).Pairwise fun x y => x.channel c ≤ y.channel c := by
  unfold sortByChannel
  have hs : (List.range 256).Pairwise (· < ·) := List.pairwise_lt_range
  generalize List.range 256 = l at hs
  induction l with
  | nil => simp
  | cons v l ih =>
    rw [List.flatMap_cons, List.pairwise_append]
    rw [List.pairwise_cons] at hs
    have hv : ∀ x ∈ b.filter (fun s => Nat.beq (s.channel c) v), x.channel c = v := by
      intro x hx
      simpa [Nat.beq_eq] using (List.mem_filter.mp hx).2
    refine ⟨List.pairwise_of_forall_mem_list fun x hx y hy => by rw [hv x hx, hv y hy], ih hs.2, ?_⟩
    intro x hx y hy
    simp only [List.mem_flatMap] at hy
    obtain ⟨w, hw, hy⟩ := hy
    simp only [List.mem_filter, Nat.beq_eq] at hy
    have := hs.1 w hw
    rw [hv x hx, hy.2]
    omega

/-- The sort is stable: members with one key value keep their order. -/
theorem sortByChannel_filter (b : Bucket) (c : Channel) (v : Nat) :
    (sortByChannel b c).filter (fun x => decide (x.channel c = v)) = b.filter fun x => decide (x.channel c = v) := by
  unfold sortByChannel
  rw [List.filter_flatMap]
  have key : ∀ l : List Nat, l.Nodup →
      (l.flatMap fun w => (b.filter fun s => Nat.beq (s.channel c) w).filter fun x => decide (x.channel c = v)) =
        if v ∈ l then b.filter (fun x => decide (x.channel c = v)) else [] := by
    intro l
    induction l with
    | nil => simp
    | cons w l ih =>
      intro h
      rw [List.flatMap_cons, ih (List.nodup_cons.mp h).2, List.filter_filter]
      have hw := (List.nodup_cons.mp h).1
      by_cases hv : v = w
      · subst hv
        rw [if_neg hw, if_pos (by simp), List.append_nil]
        congr 1
        funext s
        by_cases hs : s.channel c = v <;> simp [hs]
      · have : (b.filter fun s => decide (s.channel c = v) && Nat.beq (s.channel c) w) = [] := by
          rw [List.filter_eq_nil_iff]
          intro a _
          simp [Nat.beq_eq]
          omega
        rw [this]
        simp [hv]
  rw [key _ List.nodup_range]
  split
  · rfl
  · next h =>
    symm
    rw [List.filter_eq_nil_iff]
    intro a _
    have := a.channel_le c
    simp at h ⊢
    omega

/-! ### MAP -/

/-- The square of a difference (00_scope.md R13), over the integers. -/
theorem sqDiff_eq (x y : Nat) : ((sqDiff x y : Nat) : Int) = ((x : Int) - y) ^ 2 := by
  unfold sqDiff
  rcases Nat.le_total x y with h | h <;>
    · rw [Nat.sub_eq_zero_of_le h]
      push_cast [Nat.cast_sub h]
      ring

/-- MAP's inner loop (41_palette_quantizer.md R108): with the lowest index of a nearest entry of the part already seen, it ends
with that of the whole palette. -/
theorem nearestFrom_spec (px : Rgb) : ∀ (qs pre : List Rgb) (bd bj : Nat),
    (∃ best, pre[bj]? = some best ∧ bd = distance px best ∧
      ∀ k o, pre[k]? = some o → bd ≤ distance px o ∧ (k < bj → bd < distance px o)) →
    ∃ best, (pre ++ qs)[nearestFrom px pre.length (some (bd, bj)) qs]? = some best ∧
      ∀ k o, (pre ++ qs)[k]? = some o →
        distance px best ≤ distance px o ∧
          (k < nearestFrom px pre.length (some (bd, bj)) qs → distance px best < distance px o)
  | [], pre, bd, bj, ⟨best, h1, h2, h3⟩ => by
    subst h2
    exact ⟨best, by simpa [nearestFrom] using h1, by simpa [nearestFrom] using h3⟩
  | q :: qs, pre, bd, bj, ⟨best, h1, h2, h3⟩ => by
    have hlt : bj < pre.length := (List.getElem?_eq_some_iff.mp h1).1
    have last : ∀ k o, (pre ++ [q])[k]? = some o → pre[k]? = some o ∨ (pre.length = k ∧ o = q) := by
      intro k o hk
      rcases Nat.lt_or_ge k pre.length with h | h
      · exact .inl (by rwa [List.getElem?_append_left h] at hk)
      · rcases Nat.eq_or_lt_of_le h with e | e
        · subst e
          exact .inr ⟨rfl, by simpa using hk.symm⟩
        · rw [List.getElem?_eq_none (by simp; omega)] at hk
          cases hk
    unfold nearestFrom
    split
    · next hd =>
      have := nearestFrom_spec px qs (pre ++ [q]) (distance px q) pre.length ⟨q, by simp, rfl, by
        intro k o hk
        rcases last k o hk with hk | ⟨rfl, rfl⟩
        · have := (h3 k o hk).1
          omega
        · exact ⟨le_refl _, by omega⟩⟩
      simpa using this
    · next hd =>
      have := nearestFrom_spec px qs (pre ++ [q]) bd bj
        ⟨best, by rw [List.getElem?_append_left hlt]; exact h1, h2, by
          intro k o hk
          rcases last k o hk with hk | ⟨rfl, rfl⟩
          · exact h3 k o hk
          · exact ⟨by omega, by omega⟩⟩
      simpa using this

@[simp] theorem mapPixels_length (pal px : List Rgb) : (mapPixels pal px).length = px.length := by simp [mapPixels]

/-! ### QUANTIZE -/

/-- QUANTIZE gives one index per pixel, whatever working state it finds. -/
theorem quantize_idx_length (p : Nat) (px : List Rgb) (w : Work) : (quantize p px w).idx.length = px.length := by
  unfold quantize
  dsimp only
  split
  · next h =>
    have := (sample_eq_nil_iff p px).mp (List.length_eq_zero_iff.mp h)
    simp [this]
  · simp

/-- QUANTIZE on a frame with a pixel: the palette and the indices. -/
theorem quantize_of_pixels (p : Nat) {px : List Rgb} (h : px ≠ []) (w : Work) :
    (quantize p px w).pal = paletteOf (sample p px) ∧ (quantize p px w).idx = mapPixels (paletteOf (sample p px)) px := by
  have hs : ¬ (sample p px).length = 0 := by rwa [List.length_eq_zero_iff, sample_eq_nil_iff]
  unfold quantize
  dsimp only
  rw [if_neg hs]
  exact ⟨rfl, rfl⟩

end Sys2Proof.Machine
end

