-- ==== Sys2Proof/Laws/Commands.lean ====
section
/-! SUPPORT. What each command can do, said once: its normal form, and the ways it can end. -/

namespace Sys2Proof.Machine

/-- Every meaning starts by accepting the command: on a FAULTED block it changes nothing (60_exceptions.md R205). -/
theorem exec_eq_next_of_fault (i : Instr) {s : State} (h : s.status.fault ≠ .none) : exec i s = .next s := by
  cases i <;> simp [exec, execConfigureDefault, execConfigureDelay, execAddFrame, execFinish, execReadOutput, execGetBlob,
    accept_of_fault h]

theorem execute_eq_next_of_fault (cmd : CmdWord) {s : State} (h : s.status.fault ≠ .none) : execute cmd s = .next s := by
  unfold execute
  cases decode cmd with
  | none => exact accept_of_fault h _
  | some i => exact exec_eq_next_of_fault i h

/-- Fault entry gives the state that Safety names. -/
theorem raiseFault_eq_afterFault (f : FaultCode) (s : State) : raiseFault f s = .next (s.afterFault f) := rfl

/-- A change f of the state that has nothing to do with OUT, the parameters or a CAPACITY fault's outcome can be made after an
append instead of before it. -/
theorem appendThen_of_commutes (f : State → State) (bs : List Byte) (s : State) (k : State → Result)
    (hout : ∀ s bs, (f s).appendOut bs = f (s.appendOut bs)) (hfits : ∀ s n, (f s).fits n = s.fits n)
    (hraise : ∀ s, raiseAppendCapacity (f s) = raiseAppendCapacity s) :
    appendThen bs (f s) k = appendThen bs s (fun s' => k (f s')) := by
  simp only [appendThen, hout, hfits, hraise]

/-- STATUS.HDR set. -/
theorem appendThen_setHdr (bs : List Byte) (s : State) (k : State → Result) :
    appendThen bs (s.setStatus (s.status.withHdr true)) k =
      appendThen bs s (fun s' => k (s'.setStatus (s'.status.withHdr true))) :=
  appendThen_of_commutes (fun s => s.setStatus (s.status.withHdr true)) bs s k (fun _ _ => rfl) (fun _ _ => rfl) (fun _ => rfl)

/-- The working state written. -/
theorem appendThen_setWork (w : Work) (bs : List Byte) (s : State) (k : State → Result) :
    appendThen bs (s.setWork w) k = appendThen bs s (fun s' => k (s'.setWork w)) :=
  appendThen_of_commutes (fun s => s.setWork w) bs s k (fun _ _ => rfl) (fun _ _ => rfl) (fun _ => rfl)

/-- Setting HDR where it is set changes nothing. -/
theorem setStatus_withHdr_of_hdr {s : State} (h : s.status.hdr = true) : s.setStatus (s.status.withHdr true) = s := by
  have : s.status.withHdr true = s.status := by
    cases hs : s.status
    simp only [hs] at h
    simp [Status.withHdr, h]
  rw [this]
  rfl

/-- "EMIT_HEADER if HDR = 0", and then an append of bytes g that do not depend on OUT or STATUS, come to one append of both, and
HDR set. -/
theorem headerThen_append (s : State) (g : State → List Byte) (k : State → Result)
    (hg : ∀ (s : State) (bs : List Byte) (st : Status), g ((s.appendOut bs).setStatus st) = g s) :
    headerThen s (fun s => appendThen (g s) s k) =
      appendThen (s.pendingHeader ++ g s) s (fun s' => k (s'.setStatus (s'.status.withHdr true))) := by
  unfold headerThen State.pendingHeader
  split
  · next h =>
    simp only [List.nil_append, appendThen]
    split
    · rw [setStatus_withHdr_of_hdr (s := s.appendOut _) h]
    · rfl
  · rw [← appendThen_append]
    rcases appendThen_cases (headerBytes s.width.toNat s.height.toNat) s
        (fun s => appendThen (g (s.setStatus (s.status.withHdr true))) (s.setStatus (s.status.withHdr true)) k)
      with ⟨hf, he⟩ | ⟨hf, he⟩
    · rw [he, appendThen_fits _ hf, hg, appendThen_setHdr]
    · rw [he, appendThen_full _ hf]

/-- QUANTIZE's palette and indices do not depend on the working state it finds (41_palette_quantizer.md R109, R110). -/
theorem quantize_pal (p : Nat) (px : List Rgb) (w w' : Work) : (quantize p px w).pal = (quantize p px w').pal := by
  unfold quantize
  dsimp only
  split <;> rfl

theorem quantize_idx (p : Nat) (px : List Rgb) (w w' : Work) : (quantize p px w).idx = (quantize p px w').idx := by
  unfold quantize
  dsimp only
  split <;> rfl

theorem quantize_comp (p : Nat) (px : List Rgb) (w : Work) : (quantize p px w).comp = w.comp := by
  unfold quantize
  dsimp only
  split <;> rfl

/-- A frame's bytes as the state has them. -/
def State.frameBytes (s : State) : List Byte := Machine.frameBytes s.delayMs.toNat s.width.toNat s.height.toNat s.pixBytes

/-- A frame's bytes, from the working state QUANTIZE leaves at any state found. -/
theorem State.frameBytes_eq (s : State) :
    s.frameBytes =
      frameHead s.delayMs.toNat s.width.toNat s.height.toNat (quantize s.pixelCount (pixels s.pixBytes) s.work).pal ++
        lzwBlock (paletteBits (quantize s.pixelCount (pixels s.pixBytes) s.work).pal.length)
          (quantize s.pixelCount (pixels s.pixBytes) s.work).idx := by
  rw [quantize_pal _ _ s.work Work.empty, quantize_idx _ _ s.work Work.empty]
  simp only [State.frameBytes, Machine.frameBytes, frameWork, State.pixelCount]

/-- LZW_COMPRESS on a non-empty index buffer is one append of its block; what it leaves in the working state is then discarded. -/
theorem lzwThen_append (s : State) (hidx : s.work.idx ≠ []) :
    (lzwThen s fun s => complete .empty s.discardWork) =
      appendThen (lzwBlock (paletteBits s.work.pal.length) s.work.idx) s (fun s' => complete .empty s'.discardWork) := by
  obtain ⟨first, rest, hfr⟩ := List.exists_cons_of_ne_nil hidx
  unfold lzwThen
  simp only [hfr, lzwBlock]
  rw [lzwCompress_of_state _ first rest _ Work.empty.comp]
  generalize lzwCompress _ first rest Work.empty.comp = z
  rw [appendThen_setWork]
  rfl

/-- QUANTIZE, EMIT_FRAME_HEAD and LZW_COMPRESS on a frame with a pixel are one append of the frame's bytes; the working state is
discarded after it (44_container_commands.md R186). -/
theorem frame_append (s : State) (hidx : (quantize s.pixelCount (pixels s.pixBytes) s.work).idx ≠ []) :
    (frameHeadThen (quantizeFrame s) fun s => lzwThen s fun s => complete .empty s.discardWork) =
      appendThen s.frameBytes s (fun s' => complete .empty s'.discardWork) := by
  rw [State.frameBytes_eq, ← appendThen_append]
  unfold frameHeadThen quantizeFrame
  generalize quantize s.pixelCount (pixels s.pixBytes) s.work = q at hidx ⊢
  rw [appendThen_setWork]
  simp only [State.setWork_delayMs, State.setWork_width, State.setWork_height, State.setWork_work]
  congr 1
  funext s'
  rw [lzwThen_append _ hidx, State.setWork_work, appendThen_setWork]
  rfl

/-- ADD_FRAME past its checks, on a frame with a pixel, is one append of the header still to come and the frame's bytes; then HDR
is set and the working state discarded (44_container_commands.md R186). -/
theorem addFrame_append (s : State) (hidx : (quantize s.pixelCount (pixels s.pixBytes) s.work).idx ≠ []) :
    (headerThen s fun s => frameHeadThen (quantizeFrame s) fun s => lzwThen s fun s => complete .empty s.discardWork) =
      appendThen s.addFrameBytes s
        (fun s' => complete .empty (s'.setStatus (s'.status.withHdr true)).discardWork) := by
  have h := headerThen_append s State.frameBytes (fun s' => complete .empty s'.discardWork) (fun _ _ _ => rfl)
  have hb : s.addFrameBytes = s.pendingHeader ++ s.frameBytes := rfl
  rw [hb, ← h]
  unfold headerThen
  split
  · exact frame_append s hidx
  · rcases Bool.eq_false_or_eq_true (s.fits (headerBytes s.width.toNat s.height.toNat).length) with hf | hf
    · rw [appendThen_fits _ hf, appendThen_fits _ hf]
      exact frame_append _ hidx
    · rw [appendThen_full _ hf, appendThen_full _ hf]

/-- The same on a frame of no pixels: if the bytes before the LZW block fit, LZW_COMPRESS is refused (93 U14). -/
theorem addFrame_append_empty (s : State) (hidx : (quantize s.pixelCount (pixels s.pixBytes) s.work).idx = []) :
    (headerThen s fun s => frameHeadThen (quantizeFrame s) fun s => lzwThen s fun s => complete .empty s.discardWork) =
      appendThen s.addFrameBytes s (fun _ => .refused .emptyFrame) := by
  have hframe : ∀ s : State, (quantize s.pixelCount (pixels s.pixBytes) s.work).idx = [] →
      (frameHeadThen (quantizeFrame s) fun s => lzwThen s fun s => complete .empty s.discardWork) =
        appendThen s.frameBytes s (fun _ => .refused .emptyFrame) := by
    intro s hidx
    rw [State.frameBytes_eq, hidx]
    unfold frameHeadThen quantizeFrame
    generalize quantize s.pixelCount (pixels s.pixBytes) s.work = q at hidx ⊢
    rw [appendThen_setWork]
    simp only [State.setWork_delayMs, State.setWork_width, State.setWork_height, State.setWork_work, lzwBlock,
      List.append_nil]
    congr 1
    funext s'
    simp [lzwThen, hidx]
  have h := headerThen_append s State.frameBytes (fun _ => .refused .emptyFrame) (fun _ _ _ => rfl)
  have hb : s.addFrameBytes = s.pendingHeader ++ s.frameBytes := rfl
  rw [hb, ← h]
  unfold headerThen
  split
  · exact hframe s hidx
  · rcases Bool.eq_false_or_eq_true (s.fits (headerBytes s.width.toNat s.height.toNat).length) with hf | hf
    · rw [appendThen_fits _ hf, appendThen_fits _ hf]
      exact hframe _ hidx
    · rw [appendThen_full _ hf, appendThen_full _ hf]

/-- FINISH past its checks is one append of the header still to come and the trailer; then HDR and FIN are set
(44_container_commands.md R187). -/
theorem finish_append (s : State) :
    (headerThen s fun s => appendThen trailer s fun s => complete .empty (s.setStatus s.status.finished)) =
      appendThen s.finishBytes s
        (fun s' => complete .empty (s'.setStatus (s'.status.withHdr true).finished)) :=
  headerThen_append s (fun _ => trailer) (fun s => complete .empty (s.setStatus s.status.finished)) (fun _ _ _ => rfl)

/-! ### The ways a command can end -/

/-- What a command leaves when it completes. -/
def completedState (s : State) : Instr → State
  | .configureDefault w h =>
    ((((s.setConfig w h 100#23).setOut []).setStatus s.status.configured).respond (okResponse .empty))
  | .configureDelay w h d =>
    ((((s.setConfig w h (BitVec.ofNat 23 (effectiveDelayGiven s.params d))).setOut []).setStatus s.status.configured).respond
      (okResponse .empty))
  | .addFrame =>
    (((s.appendOut s.addFrameBytes).setStatus (s.status.withHdr true)).discardWork).respond (okResponse .empty)
  | .finish => ((s.appendOut s.finishBytes).setStatus (s.status.withHdr true).finished).respond (okResponse .empty)
  | .readOutput => s.respond (okResponse (.bytes s.outRead))
  | .getBlob => s.respond (okResponse (.blob s.outRead .imageGif))

/-- When a command on a block that is not FAULTED completes (44_container_commands.md R185 to R189). -/
def RunsToEnd (s : State) : Instr → Prop
  | .configureDefault w h => w ≠ 0#16 ∧ h ≠ 0#16 ∧ exceeds (w.toNat * h.toNat) s.params.maxFramePixels = false
  | .configureDelay w h d =>
    w ≠ 0#16 ∧ h ≠ 0#16 ∧ effectiveDelayGiven s.params d ≤ 655354 ∧
      exceeds (w.toNat * h.toNat) s.params.maxFramePixels = false
  | .addFrame =>
    s.status.cfg = true ∧ s.status.fin = false ∧ s.pixLen = s.pixelCount * 4 ∧ pixels s.pixBytes ≠ [] ∧
      s.fits s.addFrameBytes.length = true
  | .finish => s.status.cfg = true ∧ s.status.fin = false ∧ s.fits s.finishBytes.length = true
  | .readOutput => s.status.cfg = true
  | .getBlob => s.status.cfg = true

/-- The ways a command on a block that is not FAULTED can end. -/
inductive Ending (i : Instr) (s : State) : Result → Prop where
  /-- A fault raised before anything changes. -/
  | precise (f : FaultCode) (hf : f ≠ .none) (hc : f = .capacity → isConfigure i = true) : Ending i s (.next (s.afterFault f))
  /-- A CAPACITY fault raised by an append. -/
  | appendFull (hi : i = .addFrame ∨ i = .finish) (hcfg : s.status.cfg = true) (hfin : s.status.fin = false)
      (hfit : s.fits (s.appendedBy i).length = false) : Ending i s (raiseAppendCapacity s)
  /-- ADD_FRAME on a frame of no pixels. -/
  | emptyFrame (hi : i = .addFrame) (hcfg : s.status.cfg = true) (hlen : s.pixLen = s.pixelCount * 4)
      (hpx : pixels s.pixBytes = []) : Ending i s (.refused .emptyFrame)
  /-- The command completes. -/
  | completes (h : RunsToEnd s i) : Ending i s (.next (completedState s i))

/-- The centisecond field overflows exactly above 655354 ms (10_state.md R24). -/
theorem delay_overflow_iff (d : Nat) : roundHalfUp d 10 > 65535 ↔ 655354 < d := by
  unfold roundHalfUp
  omega

/-- CONFIGURE's checks and writes, by cases (44_container_commands.md R185). -/
theorem configureWith_cases (w h : BitVec 16) (eff : Nat) (s : State) :
    (∃ f, f ≠ .none ∧ configureWith w h eff s = .next (s.afterFault f)) ∨
    ((w ≠ 0#16 ∧ h ≠ 0#16 ∧ eff ≤ 655354 ∧ exceeds (w.toNat * h.toNat) s.params.maxFramePixels = false) ∧
      configureWith w h eff s =
        .next ((((s.setConfig w h (BitVec.ofNat 23 eff)).setOut []).setStatus s.status.configured).respond
          (okResponse .empty))) := by
  unfold configureWith
  split
  · exact .inl ⟨.badDimensions, by decide, rfl⟩
  · next hwh =>
    split
    · exact .inl ⟨.delayRange, by decide, rfl⟩
    · next hd =>
      rw [delay_overflow_iff] at hd
      split
      · exact .inl ⟨.capacity, by decide, rfl⟩
      · next hm => exact .inr ⟨⟨fun e => hwh (.inl e), fun e => hwh (.inr e), by omega, by simpa using hm⟩, rfl⟩

/-- A command that is not accepted leaves all as it was; every other one ends in one of the ways of Ending. -/
theorem exec_ending (i : Instr) {s : State} (hs : s.status.fault = .none) : Ending i s (exec i s) := by
  have hclosed : s.status.cfg = false → exec i s = .next (s.afterFault .notConfigured) ∨ isConfigure i = true := by
    intro hcfg
    cases i <;>
      simp [exec, execAddFrame, execFinish, execReadOutput, execGetBlob, accept_of_none hs, requireConfigured, hcfg,
        raiseFault_eq_afterFault, isConfigure]
  have hfinished : s.status.cfg = true → s.status.fin = true → (i = .addFrame ∨ i = .finish) →
      exec i s = .next (s.afterFault .afterFinish) := by
    rintro hcfg hfin (rfl | rfl) <;>
      simp [exec, execAddFrame, execFinish, accept_of_none hs, requireConfigured, requireOpen, hcfg, hfin,
        raiseFault_eq_afterFault]
  cases i with
  | configureDefault w h =>
    have he : exec (.configureDefault w h) s = configureWith w h 100 s := by
      simp [exec, execConfigureDefault, accept_of_none hs, effectiveDelayAbsent, defaultDelayMs]
    rw [he]
    rcases configureWith_cases w h 100 s with ⟨f, hf, hx⟩ | ⟨⟨h1, h2, _, h4⟩, hx⟩
    · rw [hx]
      exact .precise f hf (fun _ => rfl)
    · rw [hx]
      exact .completes ⟨h1, h2, h4⟩
  | configureDelay w h d =>
    have he : exec (.configureDelay w h d) s = configureWith w h (effectiveDelayGiven s.params d) s := by
      simp [exec, execConfigureDelay, accept_of_none hs]
    rw [he]
    rcases configureWith_cases w h (effectiveDelayGiven s.params d) s with ⟨f, hf, hx⟩ | ⟨hr, hx⟩
    · rw [hx]
      exact .precise f hf (fun _ => rfl)
    · rw [hx]
      exact .completes hr
  | addFrame =>
    cases hcfg : s.status.cfg with
    | false =>
      rcases hclosed hcfg with h | h
      · rw [h]
        exact .precise _ (by decide) (by decide)
      · cases h
    | true =>
      cases hfin : s.status.fin with
      | true =>
        rw [hfinished hcfg hfin (.inl rfl)]
        exact .precise _ (by decide) (by decide)
      | false =>
        by_cases hlen : s.pixLen = s.pixelCount * 4
        · have he : exec .addFrame s =
              headerThen s fun s => frameHeadThen (quantizeFrame s) fun s => lzwThen s fun s =>
                complete .empty s.discardWork := by
            simp [exec, execAddFrame, accept_of_none hs, requireConfigured, requireOpen, hcfg, hfin, hlen]
          rw [he]
          have hnil : (quantize s.pixelCount (pixels s.pixBytes) s.work).idx = [] ↔ pixels s.pixBytes = [] := by
            rw [← List.length_eq_zero_iff, quantize_idx_length, List.length_eq_zero_iff]
          by_cases hpx : pixels s.pixBytes = []
          · rw [addFrame_append_empty s (hnil.mpr hpx)]
            rcases Bool.eq_false_or_eq_true (s.fits s.addFrameBytes.length) with hf | hf
            · rw [appendThen_fits _ hf]
              exact .emptyFrame rfl hcfg hlen hpx
            · rw [appendThen_full _ hf]
              exact .appendFull (.inl rfl) hcfg hfin hf
          · rw [addFrame_append s (fun e => hpx (hnil.mp e))]
            rcases Bool.eq_false_or_eq_true (s.fits s.addFrameBytes.length) with hf | hf
            · rw [appendThen_fits _ hf]
              exact .completes ⟨hcfg, hfin, hlen, hpx, hf⟩
            · rw [appendThen_full _ hf]
              exact .appendFull (.inl rfl) hcfg hfin hf
        · have he : exec .addFrame s = .next (s.afterFault .bufferLength) := by
            simp [exec, execAddFrame, accept_of_none hs, requireConfigured, requireOpen, hcfg, hfin, hlen,
              raiseFault_eq_afterFault]
          rw [he]
          exact .precise _ (by decide) (by decide)
  | finish =>
    cases hcfg : s.status.cfg with
    | false =>
      rcases hclosed hcfg with h | h
      · rw [h]
        exact .precise _ (by decide) (by decide)
      · cases h
    | true =>
      cases hfin : s.status.fin with
      | true =>
        rw [hfinished hcfg hfin (.inr rfl)]
        exact .precise _ (by decide) (by decide)
      | false =>
        have he : exec .finish s =
            headerThen s fun s => appendThen trailer s fun s => complete .empty (s.setStatus s.status.finished) := by
          simp [exec, execFinish, accept_of_none hs, requireConfigured, requireOpen, hcfg, hfin]
        rw [he, finish_append]
        rcases Bool.eq_false_or_eq_true (s.fits s.finishBytes.length) with hf | hf
        · rw [appendThen_fits _ hf]
          exact .completes ⟨hcfg, hfin, hf⟩
        · rw [appendThen_full _ hf]
          exact .appendFull (.inr rfl) hcfg hfin hf
  | readOutput =>
    cases hcfg : s.status.cfg with
    | false =>
      rcases hclosed hcfg with h | h
      · rw [h]
        exact .precise _ (by decide) (by decide)
      · cases h
    | true =>
      have he : exec .readOutput s = .next (completedState s .readOutput) := by
        simp [exec, execReadOutput, accept_of_none hs, requireConfigured, hcfg, complete, completedState]
      rw [he]
      exact .completes hcfg
  | getBlob =>
    cases hcfg : s.status.cfg with
    | false =>
      rcases hclosed hcfg with h | h
      · rw [h]
        exact .precise _ (by decide) (by decide)
      · cases h
    | true =>
      have he : exec .getBlob s = .next (completedState s .getBlob) := by
        simp [exec, execGetBlob, accept_of_none hs, requireConfigured, hcfg, complete, completedState]
      rw [he]
      exact .completes hcfg

end Sys2Proof.Machine
end

