-- ==== Sys2Proof/Laws/PerInstr.lean ====
section
/-! SUPPORT. Statements made instruction by instruction, one lemma per constructor of Instr. -/

namespace Sys2Proof

/-- The bits of a packed word, field by field (30_encoding.md R71). -/
theorem packWord_getLsbD (dp : BitVec 1) (d : BitVec 23) (h w : BitVec 16) (opc : BitVec 8) (i : Nat) :
    (packWord dp d h w opc).getLsbD i =
      if i < 8 then opc.getLsbD i
      else if i < 24 then w.getLsbD (i - 8)
      else if i < 40 then h.getLsbD (i - 24)
      else if i < 63 then d.getLsbD (i - 40)
      else dp.getLsbD (i - 63) := by
  change (dp ++ d ++ h ++ w ++ opc : BitVec (1 + 23 + 16 + 16 + 8)).getLsbD i = _
  simp only [BitVec.getLsbD_append]
  have e2 : (i - 8 < 16) = (i < 24) := by simp only [eq_iff_iff]; omega
  have e3 : (i - 24 < 16) = (i < 40) := by simp only [eq_iff_iff]; omega
  have e4 : (i - 40 < 23) = (i < 63) := by simp only [eq_iff_iff]; omega
  have d3 : i - 8 - 16 = i - 24 := by omega
  have d4 : i - 24 - 16 = i - 40 := by omega
  have d5 : i - 40 - 23 = i - 63 := by omega
  simp only [d3, d4, d5, e2, e3, e4]

/-- Each field of a packed word is read back as it was put in (R72). -/
theorem fieldOpc_packWord (dp : BitVec 1) (d : BitVec 23) (h w : BitVec 16) (opc : BitVec 8) :
    fieldOpc (packWord dp d h w opc) = opc := by
  apply BitVec.eq_of_getLsbD_eq
  intro i hi
  simp [fieldOpc, packWord_getLsbD, hi]

theorem fieldW_packWord (dp : BitVec 1) (d : BitVec 23) (h w : BitVec 16) (opc : BitVec 8) :
    fieldW (packWord dp d h w opc) = w := by
  apply BitVec.eq_of_getLsbD_eq
  intro i hi
  have : 8 + i < 24 := by omega
  simp [fieldW, packWord_getLsbD, hi, this]

theorem fieldH_packWord (dp : BitVec 1) (d : BitVec 23) (h w : BitVec 16) (opc : BitVec 8) :
    fieldH (packWord dp d h w opc) = h := by
  apply BitVec.eq_of_getLsbD_eq
  intro i hi
  have h1 : ¬ 24 + i < 8 := by omega
  have h2 : 24 + i < 40 := by omega
  simp [fieldH, packWord_getLsbD, hi, h1, h2]

theorem fieldD_packWord (dp : BitVec 1) (d : BitVec 23) (h w : BitVec 16) (opc : BitVec 8) :
    fieldD (packWord dp d h w opc) = d := by
  apply BitVec.eq_of_getLsbD_eq
  intro i hi
  have h1 : ¬ 40 + i < 8 := by omega
  have h2 : ¬ 40 + i < 24 := by omega
  have h3 : 40 + i < 63 := by omega
  simp [fieldD, packWord_getLsbD, hi, h1, h2, h3]

theorem fieldDP_packWord (dp : BitVec 1) (d : BitVec 23) (h w : BitVec 16) (opc : BitVec 8) :
    fieldDP (packWord dp d h w opc) = dp.getLsbD 0 := by
  rw [fieldDP, packWord_getLsbD]
  simp

/-- Two words with the same five fields are one word. -/
theorem word_ext {x y : CmdWord} (ho : fieldOpc x = fieldOpc y) (hw : fieldW x = fieldW y) (hh : fieldH x = fieldH y)
    (hd : fieldD x = fieldD y) (hp : fieldDP x = fieldDP y) : x = y := by
  apply BitVec.eq_of_getLsbD_eq
  intro i hi
  have bit : ∀ {n : Nat} (start : Nat), x.extractLsb' start n = y.extractLsb' start n → start ≤ i → i < start + n →
      x.getLsbD i = y.getLsbD i := by
    intro n start e h1 h2
    have := congrArg (fun v => v.getLsbD (i - start)) e
    have hlt : i - start < n := by omega
    have hadd : start + (i - start) = i := by omega
    simpa [BitVec.getLsbD_extractLsb', hlt, hadd] using this
  rcases Nat.lt_or_ge i 8 with h | h
  · exact bit 0 ho (by omega) (by omega)
  rcases Nat.lt_or_ge i 24 with h' | h'
  · exact bit 8 hw h (by omega)
  rcases Nat.lt_or_ge i 40 with h | h
  · exact bit 24 hh h' (by omega)
  rcases Nat.lt_or_ge i 63 with h' | h'
  · exact bit 40 hd h (by omega)
  · have : i = 63 := by omega
    subst this
    exact hp

/-- An instruction's word agrees with its row of spec/opcode_table.json: under the row's mask it is the row's match. -/
def Laws.InRow.Statement (i : Instr) : Prop := encode i &&& rowMask i = rowMatch i

theorem Laws.InRow.configureDefault (w h : BitVec 16) : Laws.InRow.Statement (.configureDefault w h) := by
  unfold Laws.InRow.Statement
  apply BitVec.eq_of_getLsbD_eq
  intro i hi
  simp only [encode, rowMask, rowMatch, BitVec.getLsbD_and, packWord_getLsbD]
  interval_cases i <;> simp

theorem Laws.InRow.configureDelay (w h : BitVec 16) (d : BitVec 23) : Laws.InRow.Statement (.configureDelay w h d) := by
  unfold Laws.InRow.Statement
  apply BitVec.eq_of_getLsbD_eq
  intro i hi
  simp only [encode, rowMask, rowMatch, BitVec.getLsbD_and, packWord_getLsbD]
  interval_cases i <;> simp

theorem Laws.InRow.addFrame : Laws.InRow.Statement .addFrame := by unfold Laws.InRow.Statement; decide

theorem Laws.InRow.finish : Laws.InRow.Statement .finish := by unfold Laws.InRow.Statement; decide

theorem Laws.InRow.readOutput : Laws.InRow.Statement .readOutput := by unfold Laws.InRow.Statement; decide

theorem Laws.InRow.getBlob : Laws.InRow.Statement .getBlob := by unfold Laws.InRow.Statement; decide

/-- The rows of the table are those of the constructors, and no word matches two of them. -/
theorem opcodeRows_disjoint :
    opcodeRows.Pairwise fun a b => a.2 &&& (a.1 &&& b.1) ≠ b.2 &&& (a.1 &&& b.1) := by decide

end Sys2Proof
end

