-- ==== Sys2Proof/Laws/Serializer.lean ====
section
/-! SUPPORT. gif_frame_serializer: what each of its operations gives, said once. -/

namespace Sys2Proof.Machine

/-- A 16-bit field is the low byte and then the high byte (20_memory.md R57). -/
theorem le16_eq {v : Nat} (h : v ≤ 65535) : le16 v = [BitVec.ofNat 8 (v % 256), BitVec.ofNat 8 (v / 256)] := by
  have h1 : v &&& 0xFF = v % 256 := Nat.and_two_pow_sub_one_eq_mod v 8
  have h2 : (v >>> 8) &&& 0xFF = v / 256 := by
    have := Nat.and_two_pow_sub_one_eq_mod (v / 2 ^ 8) 8
    rw [Nat.shiftRight_eq_div_pow]
    norm_num at this ⊢
    rw [this, Nat.mod_eq_of_lt (by omega)]
  rw [le16, h1, h2]

/-- A colour table has 4 to 256 entries (42_gif_frame_serializer.md R131). -/
theorem paletteBits_bounds (n : Nat) : 2 ≤ paletteBits n ∧ paletteBits n ≤ 8 := by
  unfold paletteBits
  split_ifs <;> omega

@[simp] theorem tableEntry_length (pal : List Rgb) (j : Nat) : (tableEntry pal j).length = 3 := by
  unfold tableEntry
  split <;> rfl

/-- n three-byte entries one after the other: the length, and each byte. -/
theorem flatMap_range_three (f : Nat → List Byte) (hf : ∀ j, (f j).length = 3) : ∀ n,
    ((List.range n).flatMap f).length = 3 * n ∧ ∀ j < n, ∀ k < 3, ((List.range n).flatMap f)[3 * j + k]? = (f j)[k]?
  | 0 => by simp
  | n + 1 => by
    obtain ⟨h1, h2⟩ := flatMap_range_three f hf n
    rw [List.range_succ, List.flatMap_append, List.flatMap_cons, List.flatMap_nil, List.append_nil]
    refine ⟨by rw [List.length_append, h1, hf]; omega, ?_⟩
    intro j hj k hk
    rcases Nat.lt_or_ge j n with h | h
    · rw [List.getElem?_append_left (by omega)]
      exact h2 j h k hk
    · have : j = n := by omega
      subst this
      rw [List.getElem?_append_right (by omega), h1]
      congr 1
      omega

/-- The length of the colour table (42_gif_frame_serializer.md R135). -/
@[simp] theorem colorTable_length (pal : List Rgb) (bits : Nat) : (colorTable pal bits).length = 3 * 2 ^ bits :=
  (flatMap_range_three (tableEntry pal) (tableEntry_length pal) _).1

@[simp] theorem graphicControl_length (cs : Nat) : (graphicControl cs).length = 8 := rfl

@[simp] theorem imageDescriptor_length (w h bits : Nat) : (imageDescriptor w h bits).length = 10 := rfl

@[simp] theorem headerBytes_length (w h : Nat) : (headerBytes w h).length = 32 := rfl

end Sys2Proof.Machine
end

