-- ==== Sys2Proof/Machine/Assembler.lean ====
section
/-! DEFINITION. The assembler's lines (30_encoding.md R79) as data, and the host event each stands for. The text's own lexing
(comments, number bases) is notation and is not modelled. -/

namespace Sys2Proof.Machine

/-- One line of a host program (R79); the buffer of ADD_FRAME is a name, not encoded in the word. -/
inductive AsmLine where
  | configure (w h : Nat)
  | configureDelay (w h delayMs : Nat)
  | addFrame (buffer : String)
  | finish
  | readOutput
  | getBlob
deriving DecidableEq, Repr

/-- `.pixels <name> = repeat(<r>,<g>,<b>,<a>; <n>)` (R79): n equal pixels. -/
def repeatPixels (r g b a : Byte) (n : Nat) : List Byte := (List.replicate n [r, g, b, a]).flatten

/-- The command of a line; a number that its field cannot hold cannot be encoded (92 D6). -/
def asmInstr : AsmLine → Option Instr
  | .configure w h =>
    if w < 65536 ∧ h < 65536 then some (.configureDefault (BitVec.ofNat 16 w) (BitVec.ofNat 16 h)) else none
  | .configureDelay w h d =>
    if w < 65536 ∧ h < 65536 ∧ d < 8388608 then
      some (.configureDelay (BitVec.ofNat 16 w) (BitVec.ofNat 16 h) (BitVec.ofNat 23 d))
    else none
  | .addFrame _ => some .addFrame
  | .finish => some .finish
  | .readOutput => some .readOutput
  | .getBlob => some .getBlob

/-- The pixel buffer a line presents, from the program's `.pixels` declarations; only ADD_FRAME names one. -/
def asmBuffer (buffers : List (String × List Byte)) : AsmLine → Option (List Byte)
  | .addFrame name => buffers.lookup name
  | .configure _ _ => some []
  | .configureDelay _ _ _ => some []
  | .finish => some []
  | .readOutput => some []
  | .getBlob => some []

/-- The host event of a line: exactly one command word (R79). -/
def asmEvent (buffers : List (String × List Byte)) (line : AsmLine) : Option HostEvent :=
  match asmInstr line, asmBuffer buffers line with
  | some i, some px => some (.command { word := encode i, pixels := px })
  | _, _ => none

end Sys2Proof.Machine
end

