-- ==== Sys2Proof/Tests/Slice0.lean ====
section
/-! SUPPORT. The model's own tests, with expected results from 95_test_vectors.md (the id stands in each comment), the smoke test
of the well-formedness checks, and for every statement with hypotheses a witness that meets them. -/

namespace Sys2Proof.Tests

open Sys2Proof Sys2Proof.Machine

/-! ### Helpers -/

/-- The next state of an outcome, if there is one. -/
def nextOf (o : Result) : Option State :=
  match o with
  | .next s => some s
  | .fault _ => none
  | .refused _ => none

/-- A block configured for w × h frames, nothing written yet. -/
def configured (w h : BitVec 16) (d : BitVec 23) : State :=
  { State.reset with
    width := w, height := h, delayMs := d, status := { cfg := true, hdr := false, fin := false, fault := .none } }

/-- A configured block that is finished. -/
def finished : State := { configured 2 2 100 with status := { cfg := true, hdr := true, fin := true, fault := .none } }

/-- A FAULTED block. -/
def faulted : State := { finished with status := { finished.status with fault := .afterFinish } }

/-- A configured 2×2 block with the all-red frame Q1 presented. -/
def red2x2 : State := { configured 2 2 100 with pix := Memory.ofBytes (repeatPixels 255 0 0 255 4) }

/-- An RGB value. -/
def rgb (r g b : Byte) : Rgb := { r := r, g := g, b := b }

/-! ### Well-formed words: one ill-formed word for each check, and the words it lets pass (30_encoding.md R74, R75) -/

/-- E16, E17, E18: opcodes 0x00, 0x06, 0xFF are not assigned; 0x01 and 0x05 are. -/
theorem test_wf_opcode :
    WordCheck.opcodeAssigned 0x0000000000000000#64 = false ∧ WordCheck.opcodeAssigned 0x0000000000000006#64 = false ∧
      WordCheck.opcodeAssigned 0x00000000000000FF#64 = false ∧ WordCheck.opcodeAssigned 0x0000000002000201#64 = true ∧
      WordCheck.opcodeAssigned 0x0000000000000005#64 = true := by decide

/-- E19, E20, E21: bits 63:8 of a command without operands are zero. -/
theorem test_wf_unused_bits :
    WordCheck.unusedBitsZero 0x0000000000000102#64 = false ∧ WordCheck.unusedBitsZero 0x0000000000000103#64 = false ∧
      WordCheck.unusedBitsZero 0x8000000000000004#64 = false ∧ WordCheck.unusedBitsZero 0x0000000000000004#64 = true := by
  decide

/-- E22: D is zero in a CONFIGURE with DP = 0; E1 and E2 pass. -/
theorem test_wf_absent_delay :
    WordCheck.absentDelayZero 0x0000010002000201#64 = false ∧ WordCheck.absentDelayZero 0x0000000002000201#64 = true ∧
      WordCheck.absentDelayZero 0x8000640002000201#64 = true := by decide

/-- The whole check on E1 to E22: the fifteen legal words, and the seven illegal ones. -/
theorem test_wf_words :
    ([0x0000000002000201#64, 0x8000640002000201#64, 0x8000320001000301#64, 0x8000000001000101#64, 0x000000FFFFFFFF01#64,
        0x80002801E0028001#64, 0x8000690001000501#64, 0x8000000002000201#64, 0x89FFFA0002000201#64, 0x89FFFB0002000201#64,
        0x0000000002000001#64, 0x0000000000000002#64, 0x0000000000000003#64, 0x0000000000000004#64,
        0x0000000000000005#64].all CmdWord.wellFormed = true) ∧
      ([0x0000000000000000#64, 0x0000000000000006#64, 0x00000000000000FF#64, 0x0000000000000102#64, 0x0000000000000103#64,
        0x8000000000000004#64, 0x0000010002000201#64].any CmdWord.wellFormed = false) := by decide

/-! ### Decoding, from words written out field by field -/

/-- E1, E5, E11: OPC 0x01, DP 0. -/
theorem test_decode_configureDefault :
    decode 0x0000000002000201#64 = some (.configureDefault 2 2) ∧
      decode 0x000000FFFFFFFF01#64 = some (.configureDefault 65535 65535) ∧
      decode 0x0000000002000001#64 = some (.configureDefault 0 2) := by decide

/-- E3, E6, E9, E10: OPC 0x01, DP 1; the width in bits 23:8, the height in bits 39:24, the delay in bits 62:40. -/
theorem test_decode_configureDelay :
    decode 0x8000320001000301#64 = some (.configureDelay 3 1 50) ∧
      decode 0x80002801E0028001#64 = some (.configureDelay 640 480 40) ∧
      decode 0x89FFFA0002000201#64 = some (.configureDelay 2 2 655354) ∧
      decode 0x89FFFB0002000201#64 = some (.configureDelay 2 2 655355) := by decide

/-- E12 to E15: the four commands without operands. -/
theorem test_decode_noarg :
    decode 0x0000000000000002#64 = some .addFrame ∧ decode 0x0000000000000003#64 = some .finish ∧
      decode 0x0000000000000004#64 = some .readOutput ∧ decode 0x0000000000000005#64 = some .getBlob := by decide

/-- E16 to E22: illegal words. -/
theorem test_decode_illegal :
    decode 0x0000000000000000#64 = none ∧ decode 0x0000000000000006#64 = none ∧ decode 0x00000000000000FF#64 = none ∧
      decode 0x0000000000000102#64 = none ∧ decode 0x0000000000000103#64 = none ∧ decode 0x8000000000000004#64 = none ∧
      decode 0x0000010002000201#64 = none := by decide

/-- E2, E4: the encoder writes the words of the table. -/
theorem test_encode :
    encode (.configureDelay 2 2 100) = 0x8000640002000201#64 ∧ encode (.configureDelay 1 1 0) = 0x8000000001000101#64 ∧
      encode (.configureDefault 65535 65535) = 0x000000FFFFFFFF01#64 ∧ encode .getBlob = 0x5#64 := by decide

/-- The opcode table's own patterns, read as table words. -/
theorem test_decodeTableWord :
    decodeTableWord 64 0x1 = some (.configureDefault 0 0) ∧ decodeTableWord 64 0x8000000000000001 = some (.configureDelay 0 0 0) ∧
      decodeTableWord 64 0x2 = some .addFrame ∧ decodeTableWord 64 0x5 = some .getBlob := by decide

/-- P4, lines 0 and 1, as assembler lines. -/
theorem test_assembler :
    asmEvent [] (.configureDelay 3 1 50) = some (.command { word := 0x8000320001000301#64, pixels := [] }) ∧
      asmEvent [("red", repeatPixels 255 0 0 255 1)] (.addFrame "red") =
        some (.command { word := 0x2#64, pixels := [255, 0, 0, 255] }) ∧
      asmEvent [] (.configureDelay 3 1 8388608) = none := by decide

/-! ### Commands, one step each -/

/-- K1: CONFIGURE 2, 2 sets the default delay and STATUS 0x01. -/
theorem test_configureDefault :
    (nextOf (exec (.configureDefault 2 2) State.reset)).map
        (fun s => (s.width, s.height, s.delayMs, s.status.word, s.outLen)) =
      some (2, 2, 100, 0x01#8, 0) := by decide

/-- K9: CONFIGURE 0, 2 faults BAD_DIMENSIONS. K18: a CONFIGURE of a finished block discards OUT. -/
theorem test_configureDefault_faults :
    (nextOf (exec (.configureDefault 0 2) State.reset)).map (fun s => (s.status.word, s.responses)) =
        some (0x40#8, [{ resp := 0x04#8, payload := .empty }]) ∧
      (nextOf (exec (.configureDefault 3 1) { finished with out := [(0, 0x47#8)] })).map
          (fun s => (s.status.word, s.outRead)) = some (0x01#8, []) := by decide

/-- K10 and K16: DELAY_RANGE just above the largest delay, and BAD_DIMENSIONS before it. -/
theorem test_configureDelay_faults :
    (nextOf (exec (.configureDelay 2 2 655355) State.reset)).map (fun s => s.status.word) = some 0x50#8 ∧
      (nextOf (exec (.configureDelay 0 0 655355) State.reset)).map (fun s => s.status.word) = some 0x40#8 ∧
      (nextOf (exec (.configureDelay 2 2 655354) State.reset)).map (fun s => (s.status.word, s.delayMs)) =
        some (0x01#8, 655354) := by decide

/-- K19, K20: an explicit delay of 0, kept or replaced by the default. -/
theorem test_configureDelay_zero :
    (nextOf (exec (.configureDelay 2 2 0) State.reset)).map (fun s => s.delayMs) = some 0 ∧
      (nextOf (exec (.configureDelay 2 2 0)
          { State.reset with params := { Config.specDefault with zeroDelayMeansDefault := true } })).map
        (fun s => s.delayMs) = some 100 := by decide

/-- Scenario B and K3: the all-red frame: 32 bytes of header and 35 of frame, STATUS 0x03. -/
theorem test_addFrame :
    (nextOf (exec .addFrame red2x2)).map (fun s => (s.status.word, s.outLen, s.outRead.drop 32)) =
      some (0x03#8, 67,
        [0x21, 0xF9, 0x04, 0x00, 0x0A, 0x00, 0x00, 0x00, 0x2C, 0x00, 0x00, 0x00, 0x00, 0x02, 0x00, 0x02, 0x00, 0x81,
          0xFF, 0x00, 0x00, 0x00, 0x00, 0x00, 0x00, 0x00, 0x00, 0x00, 0x00, 0x00, 0x02, 0x02, 0x84, 0x51, 0x00]) := by decide

/-- K6, K8, K23: NOT_CONFIGURED, BUFFER_LENGTH, and CAPACITY inside the frame (STATUS 0x71 or 0x73). -/
theorem test_addFrame_faults :
    (nextOf (exec .addFrame State.reset)).map (fun s => s.status.word) = some 0x20#8 ∧
      (nextOf (exec .addFrame { configured 2 2 100 with pix := Memory.ofBytes (List.replicate 12 0) })).map
          (fun s => (s.status.word, s.outLen)) = some (0x61#8, 0) ∧
      (nextOf (exec .addFrame { red2x2 with params := { Config.specDefault with outCapacity := some 40 } })).map
          (fun s => (s.status.fault, s.status.cfg, s.status.fin)) = some (.capacity, true, false) := by decide

/-- P1: FINISH of an empty animation: the 33 bytes, STATUS 0x07. -/
theorem test_finish :
    (nextOf (exec .finish (configured 2 2 100))).map (fun s => (s.status.word, s.outRead)) =
      some (0x07#8,
        [0x47, 0x49, 0x46, 0x38, 0x39, 0x61, 0x02, 0x00, 0x02, 0x00, 0x00, 0x00, 0x00, 0x21, 0xFF, 0x0B, 0x4E, 0x45, 0x54, 0x53,
          0x43, 0x41, 0x50, 0x45, 0x32, 0x2E, 0x30, 0x03, 0x01, 0x00, 0x00, 0x00, 0x3B]) := by decide

/-- K4: a second FINISH faults. K21, K22: 33 bytes fit exactly, 32 do not. -/
theorem test_finish_faults :
    (nextOf (exec .finish finished)).map (fun s => s.status.word) = some 0x37#8 ∧
      (nextOf (exec .finish { configured 2 2 100 with params := { Config.specDefault with outCapacity := some 33 } })).map
          (fun s => (s.status.word, s.outLen)) = some (0x07#8, 33) ∧
      (nextOf (exec .finish { configured 2 2 100 with params := { Config.specDefault with outCapacity := some 32 } })).map
          (fun s => (s.status.fault, s.status.cfg, s.status.fin)) = some (.capacity, true, false) := by decide

/-- K2: READ_OUTPUT of an empty configured block answers no bytes; READ_OUTPUT answers what OUT holds. -/
theorem test_readOutput :
    (nextOf (exec .readOutput (configured 2 2 100))).map (fun s => (s.status.word, s.responses)) =
        some (0x01#8, [{ resp := 0x00#8, payload := .bytes [] }]) ∧
      (nextOf (exec .readOutput { finished with out := [(0, 0x47#8), (1, 0x3B#8)] })).map (fun s => s.responses) =
        some [{ resp := 0x00#8, payload := .bytes [0x47, 0x3B] }] := by decide

/-- K26: GET_BLOB tags the bytes with "image/gif"; before CONFIGURE it faults. -/
theorem test_getBlob :
    (nextOf (exec .getBlob { finished with out := [(0, 0x47#8), (1, 0x3B#8)] })).map (fun s => s.responses) =
        some [{ resp := 0x00#8, payload := .blob [0x47, 0x3B] .imageGif }] ∧
      (nextOf (exec .getBlob State.reset)).map (fun s => (s.status.word, s.responses)) =
        some (0x20#8, [{ resp := 0x02#8, payload := .empty }]) := by decide

/-- K12, K15: an illegal word faults before anything else is looked at. K17: a FAULTED block accepts not even CONFIGURE. -/
theorem test_execute :
    (nextOf (execute 0x0000000000000006#64 State.reset)).map (fun s => s.status.word) = some 0x10#8 ∧
      (nextOf (execute 0x0000000000000103#64 State.reset)).map (fun s => s.status.word) = some 0x10#8 ∧
      nextOf (execute 0x0000000002000201#64 faulted) = some faulted := by decide

/-- K24, K25: MAX_FRAME_PIXELS 3 and 4 for a frame of 4 pixels. -/
theorem test_maxFramePixels :
    (nextOf (exec (.configureDefault 2 2)
        { State.reset with params := { Config.specDefault with maxFramePixels := some 3 } })).map
          (fun s => s.status.word) = some 0x70#8 ∧
      (nextOf (exec (.configureDefault 2 2)
        { State.reset with params := { Config.specDefault with maxFramePixels := some 4 } })).map
          (fun s => s.status.word) = some 0x01#8 := by decide

/-- One step of the block: P7's ADD_FRAME before CONFIGURE, RESET of a FAULTED block (P6), and an idle block. -/
theorem test_step :
    (nextOf (step { State.reset with
        inputs := [.command { word := 0x2#64, pixels := repeatPixels 255 0 0 255 4 }, .reset] })).map
          (fun s => (s.status.word, s.inputs, s.pix)) = some (0x20#8, [.reset], []) ∧
      (nextOf (step { faulted with inputs := [.reset] })).map (fun s => (s.status.word, s.width, s.outRead)) =
        some (0x00#8, 0, []) ∧
      nextOf (step faulted) = some faulted := by decide

/-- The word placed by withFetchWord is the next one run: E1. -/
theorem test_withFetchWord :
    (nextOf (step (State.reset.withFetchWord 64 0x0000000002000201))).map (fun s => (s.width, s.status.word, s.inputs)) =
      some (2, 0x01#8, []) := by decide

/-- The bits of STATUS (10_state.md R25): FAULT = 3, FIN, HDR, CFG is 0x37. -/
theorem test_status_word : faulted.status.word = 0x37#8 ∧ State.reset.status.word = 0x00#8 := by decide

/-! ### palette_quantizer -/

/-- The sampling table of 95_test_vectors.md: P and step. -/
theorem test_sampleStep :
    [1, 10000, 10001, 20000, 20001, 30001, 131070].map sampleStep = [1, 1, 2, 2, 3, 4, 14] := by decide

/-- Q3: R before G on an equal range; slot 0 before slot 1 on an equal range. -/
theorem test_palette_q3 :
    paletteOf [rgb 0 0 0, rgb 0 100 0, rgb 100 0 0, rgb 100 100 0] =
        [rgb 0 0 0, rgb 100 0 0, rgb 0 100 0, rgb 100 100 0] ∧
      mapPixels [rgb 0 0 0, rgb 100 0 0, rgb 0 100 0, rgb 100 100 0]
          [rgb 0 0 0, rgb 0 100 0, rgb 100 0 0, rgb 100 100 0] = [0, 2, 1, 3] := by decide

/-- Q5: the stable sort. -/
theorem test_palette_q5 :
    paletteOf [rgb 50 9 0, rgb 50 0 0, rgb 0 0 0, rgb 100 0 0] = [rgb 0 0 0, rgb 50 0 0, rgb 50 9 0, rgb 100 0 0] := by decide

/-- Q6: channel B with the larger range. -/
theorem test_palette_q6 : paletteOf [rgb 0 10 40, rgb 0 30 0] = [rgb 0 30 0, rgb 0 10 40] := by decide

/-- Q4: an odd split leaves one member below and two above. -/
theorem test_split_q4 :
    splitBucket [[rgb 0 0 0, rgb 10 0 0, rgb 20 0 0]] 0 .red = [[rgb 0 0 0], [rgb 10 0 0, rgb 20 0 0]] := by decide

/-- MEAN of (0,0,0) and (1,2,3) is (1,1,2); MAP takes the lower of two equally near entries. -/
theorem test_mean_map :
    mean [rgb 0 0 0, rgb 1 2 3] = rgb 1 1 2 ∧ nearest [rgb 0 0 0, rgb 2 0 0] (rgb 1 0 0) = 0 := by decide

/-! ### gif_frame_serializer -/

/-- PALETTE_BITS (95_test_vectors.md 2.3). -/
theorem test_paletteBits :
    [1, 4, 5, 8, 9, 16, 17, 33, 65, 128, 129, 256].map paletteBits = [2, 2, 3, 3, 4, 4, 5, 6, 7, 7, 8, 8] := by decide

/-- DELAY_CS (95_test_vectors.md 2.3). -/
theorem test_delayCs :
    [0, 4, 5, 40, 50, 100, 104, 105, 655354].map delayCs = [0, 0, 1, 4, 5, 10, 10, 11, 65535] := by decide

/-- SER2: the header of a 640×480 stream. -/
theorem test_header :
    (headerBytes 640 480).take 14 = [0x47, 0x49, 0x46, 0x38, 0x39, 0x61, 0x80, 0x02, 0xE0, 0x01, 0x00, 0x00, 0x00, 0x21] := by
  decide

/-- SER5: the frame head of Q9, 5 entries padded to 8, 105 ms. -/
theorem test_frameHead :
    frameHead 105 5 1 [rgb 0 0 0, rgb 0 0 255, rgb 0 255 0, rgb 255 0 0, rgb 255 255 255] =
      [0x21, 0xF9, 0x04, 0x00, 0x0B, 0x00, 0x00, 0x00, 0x2C, 0x00, 0x00, 0x00, 0x00, 0x05, 0x00, 0x01, 0x00, 0x82,
        0x00, 0x00, 0x00, 0x00, 0x00, 0xFF, 0x00, 0xFF, 0x00, 0xFF, 0x00, 0x00, 0xFF, 0xFF, 0xFF,
        0x00, 0x00, 0x00, 0x00, 0x00, 0x00, 0x00, 0x00, 0x00] := by decide

/-! ### lzw_compressor -/

/-- L1, L4, L6: a single index; a match just assigned; the width growing after the fourth code. -/
theorem test_lzw_blocks :
    lzwBlock 2 [0] = [0x02, 0x02, 0x44, 0x01, 0x00] ∧
      lzwBlock 2 [0, 0, 0, 0] = [0x02, 0x02, 0x84, 0x51, 0x00] ∧
      lzwBlock 2 [3, 2, 1, 0] = [0x02, 0x03, 0x9C, 0x02, 0x05, 0x00] := by decide

/-- L9, L10, L12: longer matches; mcs 3; mcs 8. -/
theorem test_lzw_blocks_wide :
    lzwBlock 2 [0, 1, 2, 3, 0, 1, 2, 3, 0, 1, 2, 3] = [0x02, 0x05, 0x44, 0x34, 0x86, 0x3A, 0x05, 0x00] ∧
      lzwBlock 3 [5, 5, 5, 5, 5] = [0x03, 0x03, 0x58, 0xAA, 0x09, 0x00] ∧
      lzwBlock 8 [255, 0, 255] = [0x08, 0x06, 0x00, 0xFF, 0x01, 0xF8, 0x17, 0x10, 0x00] := by decide

/-- L7, L8: code traces. -/
theorem test_lzw_codes :
    lzwCodes 2 0 [1, 0, 1, 0, 1, 0, 1] = [(4, 3), (0, 3), (1, 3), (6, 3), (8, 4), (1, 4), (5, 4)] ∧
      lzwCodes 2 0 [0, 0, 0, 0, 0, 0, 0, 0, 0] = [(4, 3), (0, 3), (6, 3), (7, 3), (8, 4), (5, 4)] := by decide

/-- R157: the mismatch that finds nextCode = 4096 emits the clear code at 12 bits and starts again with literals only. -/
theorem test_lzw_table_full :
    codesFrom 2 { freshCompressor 2 3 with nextCode := 4096, codeSize := 12 } [1] = [(3, 12), (4, 12), (1, 3), (5, 3)] := by
  decide

/-- R154, R159: the 255th data byte closes its sub-block at once, and FLUSH then writes the terminator alone. -/
theorem test_putByte_full :
    let z : Lzw := { comp := Work.empty.comp, pack := { bitbuf := 0, bitcnt := 0, sb := List.replicate 254 7 }, appended := [] }
    (putByte 9 z).pack.sb = [] ∧ (putByte 9 z).appended.take 2 = [255, 7] ∧
      (flush (putByte 9 z)).appended.drop 255 = [9, 0] := by decide +kernel

/-! ### Witnesses: for every statement with hypotheses, a state and operands that meet them together -/

/-- For the legal-state statements: the reset state is legal, and so is a configured one. -/
theorem witness_StepKeepsLegalState :
    (State.reset.Inv ∧ nextOf (step State.reset) = some State.reset) ∧ (configured 2 2 655354).Inv := by
  refine ⟨⟨⟨⟨rfl, rfl⟩, ⟨by decide, by decide⟩, ⟨rfl, rfl, rfl, rfl⟩, ?_⟩, rfl⟩,
    ⟨rfl, rfl⟩, ⟨by decide, by decide⟩, ⟨by decide, by decide, by decide, ?_⟩, ?_⟩ <;>
  · intro _ _
    simp_all [State.reset, configured, Config.specDefault]

theorem witness_LegalStatesAlwaysStep : State.reset.Inv := witness_StepKeepsLegalState.1.1

/-- An empty configured block, and one that has written its header and no frame. -/
theorem witness_StepKeepsStreamGrammar :
    (configured 2 2 100).StreamLegal ∧
      { configured 2 2 100 with
        status := { cfg := true, hdr := true, fin := false, fault := .none }
        out := Memory.ofBytes (headerBytes 2 2) : State }.StreamLegal ∧
      nextOf (step (configured 2 2 100)) = some (configured 2 2 100) := by
  refine ⟨fun _ => rfl, fun _ => ?_, rfl⟩
  exact ⟨[], by simp, by decide⟩

theorem witness_DecodedWordIsItsEncoding : decode 0x8000640002000201#64 = some (.configureDelay 2 2 100) := by decide

/-- An unfaulted state, an illegal word (E19) and a legal one (E12). -/
theorem witness_IllegalWordTakesFault :
    State.reset.status.fault = .none ∧ CmdWord.wellFormed 0x0000000000000102#64 = false ∧
      CmdWord.wellFormed 0x0000000000000002#64 = true := by decide

theorem witness_StepRunsDecodedCommand :
    let c : Command := { word := 0x2#64, pixels := [1, 2, 3, 4] }
    { State.reset with inputs := [.command c, .reset] : State }.inputs = .command c :: [.reset] ∧
      decode c.word = some .addFrame := by decide

/-- A RESET between commands and one during a command; and a FAULTED state that a step leads out of. -/
theorem witness_ResetValues :
    { faulted with inputs := [.reset] : State }.inputs = .reset :: [] ∧
      { faulted with inputs := [.resetDuring { word := 0x3#64, pixels := [] }] : State }.inputs =
        .resetDuring { word := 0x3#64, pixels := [] } :: [] ∧
      faulted.status.fault ≠ .none ∧
      (nextOf (step { faulted with inputs := [.reset] })).map (fun t => t.status.fault) = some .none := by decide

theorem witness_FaultedBlockAcceptsNothing :
    faulted.status.fault ≠ .none ∧
      { faulted with inputs := [.command { word := 0x4#64, pixels := [] }] : State }.status.fault ≠ .none ∧
      faulted.inputs = [] ∧ { faulted with inputs := [.reset] : State }.inputs = .reset :: [] := by decide

/-- A block whose MAX_FRAME_PIXELS is 4, so that a 2×2 frame meets the bound exactly. -/
def bounded4 : State := { State.reset with params := { Config.specDefault with maxFramePixels := some 4 } }

/-- A frame that meets the bound exactly, with the delays 0 and 655354; and the largest frame without a bound. -/
theorem witness_ConfigureCompletes :
    (bounded4.status.fault = .none ∧ (2#16 : BitVec 16) ≠ 0#16 ∧
      (∀ m, bounded4.params.maxFramePixels = some m → (2#16).toNat * (2#16).toNat ≤ m) ∧
      (0#23).toNat ≤ 655354 ∧ (655354#23).toNat ≤ 655354) ∧
    (State.reset.status.fault = .none ∧ (65535#16 : BitVec 16) ≠ 0#16 ∧
      ∀ m, State.reset.params.maxFramePixels = some m → (65535#16).toNat * (65535#16).toNat ≤ m) := by
  refine ⟨⟨rfl, by decide, ?_, by decide, by decide⟩, rfl, by decide, ?_⟩
  · intro m hm
    cases hm
    decide
  · intro m hm
    cases hm

/-- Each clause: a zero dimension; the delay 655355; and 2×3 pixels above a bound of 4, with the delay 655354. -/
theorem witness_ConfigureTraps :
    bounded4.status.fault = .none ∧ ((0#16 : BitVec 16) = 0#16 ∨ (2#16 : BitVec 16) = 0#16) ∧
      ((2#16 : BitVec 16) ≠ 0#16 ∧ (3#16 : BitVec 16) ≠ 0#16 ∧ 655354 < (655355#23).toNat) ∧
      (bounded4.params.maxFramePixels = some 4 ∧ 4 < (2#16).toNat * (3#16).toNat ∧ (655354#23).toNat ≤ 655354) := by decide

/-- The all-red frame on a block with exactly the 67 bytes it needs. -/
theorem witness_AddFrameCompletes :
    let s : State := { red2x2 with params := { Config.specDefault with outCapacity := some 67 } }
    s.status.fault = .none ∧ s.status.cfg = true ∧ s.status.fin = false ∧ 1 ≤ s.width.toNat ∧ 1 ≤ s.height.toNat ∧
      s.pixLen = s.width.toNat * s.height.toNat * 4 ∧
      ∀ c, s.params.outCapacity = some c → s.outLen + s.addFrameBytes.length ≤ c := by
  refine ⟨rfl, rfl, rfl, by decide, by decide, by decide, ?_⟩
  intro c hc
  cases hc
  decide

/-- Not configured; finished; and buffers one byte short and one byte long. -/
theorem witness_AddFrameTraps :
    State.reset.status.fault = .none ∧ State.reset.status.cfg = false ∧ finished.status.fault = .none ∧
      finished.status.cfg = true ∧ finished.status.fin = true ∧
      { configured 2 2 100 with pix := Memory.ofBytes (List.replicate 15 0) : State }.pixLen ≠ (2#16).toNat * (2#16).toNat * 4 ∧
      { configured 2 2 100 with pix := Memory.ofBytes (List.replicate 17 0) : State }.pixLen ≠ (2#16).toNat * (2#16).toNat * 4 := by
  decide

/-- An empty animation on a block with exactly the 33 bytes it needs. -/
theorem witness_FinishCompletes :
    let s : State := { configured 2 2 100 with params := { Config.specDefault with outCapacity := some 33 } }
    s.status.fault = .none ∧ s.status.cfg = true ∧ s.status.fin = false ∧
      ∀ c, s.params.outCapacity = some c → s.outLen + s.finishBytes.length ≤ c := by
  refine ⟨rfl, rfl, rfl, ?_⟩
  intro c hc
  cases hc
  decide

theorem witness_FinishTraps :
    State.reset.status.fault = .none ∧ State.reset.status.cfg = false ∧ finished.status.fault = .none ∧
      finished.status.cfg = true ∧ finished.status.fin = true := by decide

/-- One byte too few for a FINISH and for the all-red frame; and a state with both capacities unbounded that gives a next
state. -/
theorem witness_AppendCapacityFault :
    (let s : State := { configured 2 2 100 with params := { Config.specDefault with outCapacity := some 32 } };
      s.status.fault = .none ∧ s.status.cfg = true ∧ s.status.fin = false ∧ s.params.outCapacity = some 32 ∧
        32 < s.outLen + (s.appendedBy .finish).length) ∧
    (let s : State := { red2x2 with params := { Config.specDefault with outCapacity := some 66 } };
      s.status.fault = .none ∧ s.status.cfg = true ∧ s.status.fin = false ∧
        s.pixLen = s.width.toNat * s.height.toNat * 4 ∧ s.params.outCapacity = some 66 ∧
        66 < s.outLen + (s.appendedBy .addFrame).length) ∧
    (State.reset.params.outCapacity = none ∧ State.reset.params.maxFramePixels = none ∧ State.reset.status.fault ≠ .capacity ∧
      (nextOf (exec (.configureDefault 2 2) State.reset)).isSome = true) := by decide

theorem witness_ReadsReturnSnapshot :
    (configured 2 2 100).status.fault = .none ∧ (configured 2 2 100).status.cfg = true ∧
      State.reset.status.fault = .none ∧ State.reset.status.cfg = false := by decide

/-- A word run on an unfaulted and on a FAULTED state. -/
theorem witness_ReportedFaultFollowsPriority :
    State.reset.status.fault = .none ∧ (nextOf (execute 0x3#64 State.reset)).isSome = true ∧
      faulted.status.fault ≠ .none ∧ (nextOf (execute 0x3#64 faulted)).isSome = true := by decide

theorem witness_ResponseWord :
    State.reset.status.fault = .none ∧ (nextOf (execute 0x4#64 (configured 2 2 100))).isSome = true ∧
      faulted.status.fault ≠ .none ∧ (nextOf (execute 0x4#64 faulted)).isSome = true := by decide

/-- A precise fault, and a CAPACITY raised by CONFIGURE. -/
theorem witness_FaultsArePrecise :
    (nextOf (exec .finish finished)).map (fun t => t.status.fault) = some .afterFinish ∧ finished.status.fault = .none ∧
      (nextOf (exec (.configureDefault 2 2)
        { State.reset with params := { Config.specDefault with maxFramePixels := some 3 } })).map
          (fun t => t.status.fault) = some .capacity ∧
      isConfigure (.configureDefault 2 2) = true := by decide

theorem witness_ResponsesOnlyGrow :
    (nextOf (step { State.reset with inputs := [.command { word := 0x4#64, pixels := [] }] })).isSome = true := by decide

/-- Each lifecycle state, and a command that completes. -/
theorem witness_LifecycleTransitions :
    faulted.status.lifecycle = .faulted ∧ State.reset.status.lifecycle = .unconfigured ∧ isConfigure .readOutput = false ∧
      finished.status.lifecycle = .finished ∧ (configured 2 2 100).status.lifecycle = .empty ∧
      (nextOf (exec .addFrame red2x2)).map (fun t => t.status.lifecycle) = some .opened := by decide

/-- A command other than CONFIGURE that completes, and one that faults. -/
theorem witness_OnlyConfigureWritesConfiguration :
    isConfigure .finish = false ∧ (nextOf (exec .finish (configured 2 2 100))).map (fun t => t.status.fault) = some .none ∧
      (nextOf (exec .finish finished)).map (fun t => t.status.fault) = some .afterFinish := by decide

/-- ADD_FRAME on a block with a byte in OUT: offset 0 lies below the appended bytes, and offset 1000 above. -/
theorem witness_OnlyAppendedBytesChange :
    let s : State :=
      { red2x2 with status := { cfg := true, hdr := true, fin := false, fault := .none }, out := [(0, 0x47#8)] }
    isConfigure .addFrame = false ∧ (nextOf (exec .addFrame s)).map (fun t => t.status.fault) = some .none ∧ 0 < s.outLen ∧
      s.outLen + (s.appendedBy .addFrame).length ≤ 36 := by decide

/-- ADD_FRAME with HDR = 0 and FINISH with HDR = 1 that complete; and a CONFIGURE that clears HDR. -/
theorem witness_HeaderLatchIsOneShot :
    let s : State := { configured 2 2 100 with status := { cfg := true, hdr := true, fin := false, fault := .none } }
    (nextOf (exec .addFrame red2x2)).map (fun t => t.status.fault) = some .none ∧
      (nextOf (exec .finish s)).map (fun t => t.status.fault) = some .none ∧
      s.status.hdr = true ∧ (nextOf (exec (.configureDefault 2 2) s)).map (fun t => t.status.hdr) = some false := by decide

theorem witness_HostSideUntouched : (nextOf (exec .addFrame red2x2)).isSome = true := by decide

theorem witness_WorkingStateNeverRead :
    (nextOf (exec .addFrame red2x2)).map (fun t => decide (t.status.fault ≠ .capacity)) = some true := by decide

theorem witness_PixNotRetained :
    Instr.finish ≠ .addFrame ∧ (nextOf (exec .finish (configured 2 2 100))).isSome = true ∧
      (nextOf (step { red2x2 with inputs := [.command { word := 0x2#64, pixels := repeatPixels 255 0 0 255 4 }] })).isSome =
        true := by decide

/-- Two pixels; and two one-pixel buffers that differ in A alone. -/
theorem witness_PixelLayout :
    ([1, 2, 3, 4, 5, 6, 7, 8] : List Byte).length = 4 * 2 ∧ ([1, 2, 3, 0] : List Byte).length = 1 * 1 * 4 ∧
      ([1, 2, 3, 255] : List Byte).length = 1 * 1 * 4 ∧
      ∀ i, i % 4 ≠ 3 → ([1, 2, 3, 0] : List Byte)[i]? = ([1, 2, 3, 255] : List Byte)[i]? := by
  refine ⟨rfl, rfl, rfl, ?_⟩
  intro i hi
  match i, hi with
  | 0, _ => rfl
  | 1, _ => rfl
  | 2, _ => rfl
  | 3, h => exact absurd rfl h
  | i + 4, _ => simp

/-- A frame of one pixel, of 10000 and of 10001. -/
theorem witness_SamplesEveryStep :
    [rgb 1 2 3].length = 1 ∧ 1 ≤ 1 ∧ (List.replicate 10000 (rgb 1 2 3)).length = 10000 ∧
      (List.replicate 10001 (rgb 1 2 3)).length = 10001 ∧ (sample 1 [rgb 1 2 3]).length = 1 := by
  refine ⟨rfl, le_refl _, List.length_replicate, List.length_replicate, rfl⟩

theorem witness_RangeIsMaxMinusMin : ([rgb 1 2 3] : Bucket) ≠ [] := by decide

/-- A choice, and no choice. -/
theorem witness_SelectTakesFirstWidest :
    selectSplit [[rgb 0 0 0], [rgb 0 0 0, rgb 0 9 9]] = some (1, .green) ∧ selectSplit [[rgb 7 7 7, rgb 7 7 7]] = none := by
  decide

theorem witness_SplitHalvesSortedBucket :
    ([[rgb 5 0 0, rgb 1 0 0]] : List Bucket)[0]? = some [rgb 5 0 0, rgb 1 0 0] ∧ 2 ≤ [rgb 5 0 0, rgb 1 0 0].length := by decide

theorem witness_MedianCutEnds : [rgb 1 2 3] ≠ [] := by decide

theorem witness_MeanRoundsHalfUp : ([rgb 0 0 0, rgb 1 2 3] : Bucket) ≠ [] := by decide

theorem witness_NearestLowestIndex :
    [rgb 0 0 0, rgb 2 0 0] ≠ [] ∧ [rgb 0 0 0, rgb 2 0 0].length ≤ 256 ∧ [rgb 1 0 0][0]? = some (rgb 1 0 0) ∧
      [rgb 0 0 0, rgb 2 0 0][1]? = some (rgb 2 0 0) := by decide

theorem witness_QuantizerInvariants : (repeatPixels 255 0 0 255 4).length = 2 * 2 * 4 ∧ 1 ≤ 2 * 2 := by decide

/-- The largest and the smallest dimensions. -/
theorem witness_HeaderLayout : (65535 ≤ 65535 ∧ 65535 ≤ 65535) ∧ (1 ≤ 65535 ∧ 1 ≤ 65535) := by decide

/-- The largest delay and the delay 0. -/
theorem witness_FrameHeadLayout : (655354 ≤ 655354 ∧ 65535 ≤ 65535 ∧ 65535 ≤ 65535) ∧ (0 ≤ 655354 ∧ 1 ≤ 65535) := by decide

/-- Both ends of the range, and the bit counts that meet the last clause's hypotheses there. -/
theorem witness_PaletteBitsSmallest : (1 ≤ 1 ∧ 1 ≤ 256 ∧ 2 ≤ 2 ∧ 1 ≤ 2 ^ 2) ∧ (1 ≤ 256 ∧ 256 ≤ 256 ∧ 2 ≤ 8 ∧ 256 ≤ 2 ^ 8) := by
  decide

/-- The first and the last entry of a table of 4. -/
theorem witness_ColorTableEntries : 0 < 2 ^ 2 ∧ 3 < 2 ^ 2 := by decide

theorem witness_DelayRangeAndRounding : (0 < 10 ∧ roundHalfUp 655354 10 ≤ 65535 ∧ 655354 ≤ 655354) ∧ ¬ 655355 ≤ 655354 := by
  decide

theorem witness_FrameByteCounts :
    (repeatPixels 255 0 0 255 4).length = 2 * 2 * 4 ∧ 1 ≤ 2 * 2 ∧
      (nextOf (exec .addFrame red2x2)).map (fun t => t.status.fault) = some .none := by decide

/-- mcs 2 and 8 with their largest literal, and a sequence that is no literal. -/
theorem witness_DictResetState :
    (2 ≤ 2 ∧ 2 ≤ 8 ∧ (3#8).toNat < 2 ^ 2) ∧ (2 ≤ 8 ∧ 8 ≤ 8 ∧ (255#8).toNat < 2 ^ 8) ∧
      ∀ v : Byte, v.toNat < 2 ^ 2 → ([0, 1] : List Byte) ≠ [v] := by
  refine ⟨by decide, by decide, ?_⟩
  intro v _
  simp

/-- The largest 12-bit code with 7 bits pending. -/
theorem witness_EmitCodePacksBits :
    let z : Lzw :=
      { comp := { freshCompressor 2 0 with codeSize := 12 }, pack := { bitbuf := 127, bitcnt := 7, sb := [] }, appended := [] }
    4095 < 2 ^ z.comp.codeSize ∧ z.pack.bitbuf < 2 ^ z.pack.bitcnt := by decide

/-- The 255th byte, and the 254th. -/
theorem witness_PutByteClosesAt255 :
    (List.replicate 254 (0#8)).length + 1 = 255 ∧ (List.replicate 253 (0#8)).length + 1 ≠ 255 := by
  rw [List.length_replicate, List.length_replicate]
  decide

/-- A match; a mismatch with the last code 4095 still free; and one with the table full. -/
theorem witness_MatchOrMismatch :
    let c : Compressor := insertEntry 0 (freshCompressor 2 0)
    (c.dict.lookup (c.cur ++ [0])).isSome = true ∧
      (c.dict.lookup c.cur = some 0 ∧ c.dict.lookup (c.cur ++ [1]) = none ∧
        { c with nextCode := 4095 : Compressor }.nextCode < 4096 ∧ 4096 ≤ { c with nextCode := 4096 : Compressor }.nextCode) := by
  decide

/-- Bits pending, and none. -/
theorem witness_FlushClosesBlock :
    ({ bitbuf := 127, bitcnt := 7, sb := [] } : Packer).bitbuf < 256 ∧ (7 : Nat) ≠ 0 ∧
      ({ bitbuf := 0, bitcnt := 0, sb := [] } : Packer).bitbuf < 256 := by decide

/-- mcs 2 with the largest index 3, and mcs 8 with the largest index 255. -/
theorem witness_LzwBlockFraming : (2 ≤ 2 ∧ 2 ≤ 8) ∧ (2 ≤ 8 ∧ 8 ≤ 8) := by decide

theorem witness_LzwBlockPacksCodeStream :
    (2 ≤ 2 ∧ 2 ≤ 8 ∧ ∀ x ∈ ([3, 0] : List Byte), x.toNat < 2 ^ 2) ∧
      (2 ≤ 8 ∧ 8 ≤ 8 ∧ ∀ x ∈ ([255, 0] : List Byte), x.toNat < 2 ^ 8) := by decide

theorem witness_PairDictionarySameCodes :
    (2 ≤ 2 ∧ 2 ≤ 8 ∧ ∀ x ∈ ([3, 0] : List Byte), x.toNat < 2 ^ 2) ∧
      (2 ≤ 8 ∧ 8 ≤ 8 ∧ ∀ x ∈ ([255, 0] : List Byte), x.toNat < 2 ^ 8) := by decide

/-- The indices 3 and 0 at mcs 2, and the literal code 3 among the codes of that frame. -/
theorem witness_CodeStreamInvariants :
    (2 ≤ 2 ∧ 2 ≤ 8 ∧ ∀ x ∈ ([3, 0] : List Byte), x.toNat < 2 ^ 2) ∧ ([0] : List Byte) ≠ [] ∧
      (3, 3) ∈ lzwCodes 2 3 [0] ∧ 3 < 2 ^ 2 := by decide

/-- mcs 2 and 8 with their largest index, and a legal compressor state at each. -/
theorem witness_CompressorStepKeepsLegal :
    (2 ≤ 2 ∧ 2 ≤ 8 ∧ (3#8).toNat < 2 ^ 2 ∧ CompressorLegal 2 (freshCompressor 2 3)) ∧
      (2 ≤ 8 ∧ 8 ≤ 8 ∧ (255#8).toNat < 2 ^ 8 ∧ CompressorLegal 8 (freshCompressor 8 255)) :=
  ⟨⟨by decide, by decide, by decide, CompressorLegal.reset (by decide) (by decide) _ (by decide)⟩,
    by decide, by decide, by decide, CompressorLegal.reset (by decide) (by decide) _ (by decide)⟩

/-- CONFIGURE of 2×2 with the command word of configure, one all-red frame, FINISH, from the reset state with the parameter
ZERO_DELAY_MEANS_DEFAULT at z. -/
def oneFrameRun (configure : Instr) (z : Bool) : State :=
  { State.reset with
    params := { Config.specDefault with zeroDelayMeansDefault := z }
    inputs :=
      .command { word := encode configure, pixels := [] } ::
        ([repeatPixels 255 0 0 255 4].map fun f => HostEvent.command { word := encode .addFrame, pixels := f }) ++
        [.command { word := encode .finish, pixels := [] }] }

/-- P2's frame: with no delay operand; with the delay 655354; and with the operand 0 read as 100 ms. -/
theorem witness_StreamOfFrames :
    (∀ f ∈ [repeatPixels 255 0 0 255 4], f.length = (2#16).toNat * (2#16).toNat * 4) ∧ (2#16 : BitVec 16) ≠ 0#16 ∧
      (let s := oneFrameRun (.configureDefault 2 2) false;
        s.status.fault = .none ∧ s.params.outCapacity = none ∧ s.params.maxFramePixels = none) ∧
      (let s := oneFrameRun (.configureDelay 2 2 655354) false;
        s.status.fault = .none ∧ effectiveDelayGiven s.params 655354 = 655354 ∧ (655354#23).toNat ≤ 655354) ∧
      (let s := oneFrameRun (.configureDelay 2 2 0) true;
        s.status.fault = .none ∧ effectiveDelayGiven s.params 0 = 100 ∧ (0#23).toNat ≤ 655354) := by decide

end Sys2Proof.Tests
end

section
/-! The state's own statements (10_state.md): the one-time header (R27), and what a CONFIGURE that succeeds leaves (R40). -/

namespace Sys2Proof.Machine

/-! ### The next state of a command -/

/-- The fault code an append that does not fit leaves. -/
theorem fault_of_raiseAppendCapacity {s t : State} (h : raiseAppendCapacity s = .next t) : t.status.fault = .capacity := by
  cases h
  rfl

/-- Everything a command that answers a next state has done. -/
theorem exec_next_cases {i : Instr} {s t : State} (h : exec i s = .next t) :
    (s.status.fault ≠ .none ∧ t = s) ∨
    (∃ f, f ≠ .none ∧ (f = .capacity → isConfigure i = true) ∧ t = s.afterFault f) ∨
    ((i = .addFrame ∨ i = .finish) ∧ s.fits (s.appendedBy i).length = false ∧ raiseAppendCapacity s = .next t) ∨
    (RunsToEnd s i ∧ t = completedState s i) := by
  by_cases hs : s.status.fault = .none
  · have hend := exec_ending i hs
    generalize exec i s = r at h hend
    cases hend with
    | precise f hf hc => exact .inr (.inl ⟨f, hf, hc, (Host.Outcome.next.inj h).symm⟩)
    | appendFull hi _ _ hfit => exact .inr (.inr (.inl ⟨hi, hfit, h⟩))
    | emptyFrame => cases h
    | completes hr => exact .inr (.inr (.inr ⟨hr, (Host.Outcome.next.inj h).symm⟩))
  · rw [exec_eq_next_of_fault i hs] at h
    exact .inl ⟨hs, (Host.Outcome.next.inj h).symm⟩

/-- A command that leaves no fault was accepted and ran to its end. -/
theorem exec_next_of_no_fault {i : Instr} {s t : State} (h : exec i s = .next t) (ht : t.status.fault = .none) :
    RunsToEnd s i ∧ t = completedState s i := by
  rcases exec_next_cases h with ⟨hs, rfl⟩ | ⟨f, hf, -, rfl⟩ | ⟨-, -, hfull⟩ | hrun
  · exact absurd ht hs
  · exact absurd ht hf
  · exact absurd (ht.symm.trans (fault_of_raiseAppendCapacity hfull)) (by decide)
  · exact hrun

/-! ### The header latch (R27) -/

/-- ADD_FRAME and FINISH, when they complete, append the bytes Safety names. -/
theorem completedState_outRead_of_append {i : Instr} (hi : i = .addFrame ∨ i = .finish) (s : State) :
    (completedState s i).outRead = s.outRead ++ s.appendedBy i := by
  rcases hi with rfl | rfl
  · exact s.appendOut_outRead s.addFrameBytes
  · exact s.appendOut_outRead s.finishBytes

/-- ADD_FRAME and FINISH, when they complete, leave HDR set. -/
theorem completedState_hdr_of_append {i : Instr} (hi : i = .addFrame ∨ i = .finish) (s : State) :
    (completedState s i).status.hdr = true := by
  rcases hi with rfl | rfl <;> rfl

/-- What ADD_FRAME or FINISH appends: the header still to come, and then the frame or the trailer. -/
theorem appendedBy_of_append {i : Instr} (hi : i = .addFrame ∨ i = .finish) (s : State) :
    s.appendedBy i = s.pendingHeader ++ (if i = .finish then [0x3B#8] else s.frameBytes) := by
  rcases hi with rfl | rfl <;> rfl

/-- No command but CONFIGURE clears HDR when it completes. -/
theorem completedState_keeps_hdr {i : Instr} {s : State} (hi : isConfigure i = false) (hhdr : s.status.hdr = true) :
    (completedState s i).status.hdr = true := by
  cases i with
  | configureDefault w h => cases hi
  | configureDelay w h d => cases hi
  | addFrame => exact completedState_hdr_of_append (.inl rfl) s
  | finish => exact completedState_hdr_of_append (.inr rfl) s
  | readOutput => exact hhdr
  | getBlob => exact hhdr

/-- A header written stays written through every command but CONFIGURE, unless an append raises CAPACITY. -/
theorem exec_keeps_hdr {i : Instr} {s t : State} (h : exec i s = .next t) (hi : isConfigure i = false)
    (hcap : t.status.fault ≠ .capacity) (hhdr : s.status.hdr = true) : t.status.hdr = true := by
  rcases exec_next_cases h with ⟨-, rfl⟩ | ⟨f, -, -, rfl⟩ | ⟨-, -, hfull⟩ | ⟨-, rfl⟩
  · exact hhdr
  · exact hhdr
  · exact absurd (fault_of_raiseAppendCapacity hfull) hcap
  · exact completedState_keeps_hdr hi hhdr

/-- Settles O28: a command that completes appends the pending header first and leaves HDR set, and HDR once set is kept. -/
theorem headerLatchIsOneShot : Obligations.HeaderLatchIsOneShot := by
  unfold Obligations.HeaderLatchIsOneShot
  intro i s t h
  constructor
  · intro ht hi
    obtain ⟨-, rfl⟩ := exec_next_of_no_fault h ht
    refine ⟨completedState_hdr_of_append hi s, ?_⟩
    rw [completedState_outRead_of_append hi, appendedBy_of_append hi, ← List.append_assoc]
    rfl
  · intro hhdr ht
    by_contra hno
    obtain ⟨hi, hcap⟩ := not_or.mp hno
    have hkeep := exec_keeps_hdr h (by simpa using hi) hcap hhdr
    exact absurd (hkeep.symm.trans ht) (by decide)

/-! ### CONFIGURE that succeeds (R40) -/

/-- A number is within a limit of the configuration when every bound there is admits it. -/
theorem exceeds_eq_false_iff (n : Nat) (limit : Option Nat) : exceeds n limit = false ↔ ∀ m, limit = some m → n ≤ m := by
  cases limit with
  | none => simp [exceeds]
  | some c => simp [exceeds]

/-- CONFIGURE whose operands pass the three checks of R185 completes. -/
theorem configureWith_of_legal {w h : BitVec 16} {eff : Nat} {s : State} (hw : w ≠ 0#16) (hh : h ≠ 0#16)
    (heff : eff ≤ 655354) (hpix : exceeds (w.toNat * h.toNat) s.params.maxFramePixels = false) :
    configureWith w h eff s =
      complete .empty (((s.setConfig w h (BitVec.ofNat 23 eff)).setOut []).setStatus s.status.configured) := by
  have hdims : ¬ (w = 0#16 ∨ h = 0#16) := by simp [hw, hh]
  have hdelay : ¬ roundHalfUp eff 10 > 65535 := by rw [delay_overflow_iff]; omega
  simp [configureWith, hdims, hdelay, hpix]

/-- The effective delay of an operand in range is in range (R24, decision D8). -/
theorem effectiveDelayGiven_le (p : Config.Params) {d : BitVec 23} (hd : d.toNat ≤ 655354) :
    effectiveDelayGiven p d ≤ 655354 := by
  unfold effectiveDelayGiven defaultDelayMs
  split <;> omega

/-- The effective delay as DELAY_MS holds it. -/
theorem ofNat_effectiveDelayGiven (p : Config.Params) (d : BitVec 23) :
    BitVec.ofNat 23 (effectiveDelayGiven p d) = if d = 0#23 ∧ p.zeroDelayMeansDefault = true then 100#23 else d := by
  have hzero : d.toNat = 0 ↔ d = 0#23 := BitVec.toNat_inj (y := 0#23)
  simp only [effectiveDelayGiven, hzero]
  split
  · rfl
  · simp

/-- STATUS as CONFIGURE leaves it on a block that is not FAULTED (R185). -/
theorem Status.configured_of_no_fault {st : Status} (h : st.fault = .none) :
    st.configured = { cfg := true, hdr := false, fin := false, fault := .none } := by
  rw [Status.configured, h]

/-- Settles O14: operands within their bounds pass every check of CONFIGURE, and its writes are the ones of R185. -/
theorem configureCompletes : Obligations.ConfigureCompletes := by
  unfold Obligations.ConfigureCompletes
  intro s w h hs hw hh hbound
  have hpix := (exceeds_eq_false_iff _ _).mpr hbound
  have hst := Status.configured_of_no_fault hs
  constructor
  · calc exec (.configureDefault w h) s
        = configureWith w h effectiveDelayAbsent s := accept_of_none hs _
      _ = _ := configureWith_of_legal hw hh (by decide) hpix
      _ = _ := by rw [hst]; rfl
  · intro d hd
    calc exec (.configureDelay w h d) s
        = configureWith w h (effectiveDelayGiven s.params d) s := accept_of_none hs _
      _ = _ := configureWith_of_legal hw hh (effectiveDelayGiven_le s.params hd) hpix
      _ = _ := by rw [hst, ofNat_effectiveDelayGiven]; rfl

end Sys2Proof.Machine
end

section
/-! The encoding's own statements (30_encoding.md): the illegal word and the legal one (R74 to R76), and the response word
(R77). -/

namespace Sys2Proof

/-! ### Which words decode (R74 to R76) -/

theorem decodeNoArg_isSome (cmd : CmdWord) (i : Instr) : (decodeNoArg cmd i).isSome = decide (fieldUnused cmd = 0#56) := by
  by_cases h : fieldUnused cmd = 0#56 <;> simp [decodeNoArg, h]

theorem decodeConfigure_isSome (cmd : CmdWord) :
    (decodeConfigure cmd).isSome = (fieldDP cmd || decide (fieldD cmd = 0#23)) := by
  unfold decodeConfigure
  split
  · next hdp => simp [hdp]
  · next hdp =>
    split
    · next hd => simp [hd]
    · next hd => simp [hdp, hd]

/-- The checks of R74 and R75 over the fields of R72. -/
theorem wellFormed_eq (cmd : CmdWord) :
    CmdWord.wellFormed cmd =
      (decide (1 ≤ (fieldOpc cmd).toNat ∧ (fieldOpc cmd).toNat ≤ 5) &&
        (decide (fieldOpc cmd = 0x01#8) || decide (fieldUnused cmd = 0#56)) &&
        (!decide (fieldOpc cmd = 0x01#8) || fieldDP cmd || decide (fieldD cmd = 0#23))) := by
  rw [Bool.decide_and]
  rfl

/-- A CONFIGURE word is well formed exactly if its delay is present or zero. -/
theorem wellFormed_configure {cmd : CmdWord} (h : fieldOpc cmd = 0x01#8) :
    CmdWord.wellFormed cmd = (fieldDP cmd || decide (fieldD cmd = 0#23)) := by
  simp [wellFormed_eq, h]

/-- A word of one of the four opcodes without operands is well formed exactly if its bits 63:8 are zero. -/
theorem wellFormed_noArg {cmd : CmdWord} {opc : BitVec 8} (h : fieldOpc cmd = opc) (hlow : 2 ≤ opc.toNat)
    (hhigh : opc.toNat ≤ 5) : CmdWord.wellFormed cmd = decide (fieldUnused cmd = 0#56) := by
  have hne : opc ≠ 0x01#8 := by rintro rfl; exact absurd hlow (by decide)
  have hpos : 1 ≤ opc.toNat := by omega
  simp [wellFormed_eq, h, hne, hpos, hhigh]

/-- A word of an unassigned opcode is not well formed. -/
theorem wellFormed_unassigned {cmd : CmdWord} (h1 : fieldOpc cmd ≠ 0x01#8) (h2 : fieldOpc cmd ≠ 0x02#8)
    (h3 : fieldOpc cmd ≠ 0x03#8) (h4 : fieldOpc cmd ≠ 0x04#8) (h5 : fieldOpc cmd ≠ 0x05#8) :
    CmdWord.wellFormed cmd = false := by
  have hrange : ¬ (1 ≤ (fieldOpc cmd).toNat ∧ (fieldOpc cmd).toNat ≤ 5) := by bv_omega
  simp [wellFormed_eq, hrange]

/-- The decoder of R76 accepts exactly the words that pass the checks of R74 and R75. -/
theorem decode_isSome (cmd : CmdWord) : (decode cmd).isSome = CmdWord.wellFormed cmd := by
  unfold decode
  split
  · next h1 => rw [decodeConfigure_isSome, wellFormed_configure h1]
  next h1 =>
  split
  · next h2 => rw [decodeNoArg_isSome, wellFormed_noArg h2 (by decide) (by decide)]
  next h2 =>
  split
  · next h3 => rw [decodeNoArg_isSome, wellFormed_noArg h3 (by decide) (by decide)]
  next h3 =>
  split
  · next h4 => rw [decodeNoArg_isSome, wellFormed_noArg h4 (by decide) (by decide)]
  next h4 =>
  split
  · next h5 => rw [decodeNoArg_isSome, wellFormed_noArg h5 (by decide) (by decide)]
  · next h5 => exact (wellFormed_unassigned h1 h2 h3 h4 h5).symm

theorem decode_eq_none_of_not_wellFormed {cmd : CmdWord} (h : CmdWord.wellFormed cmd = false) : decode cmd = none := by
  rw [← Option.isNone_iff_eq_none, ← Option.not_isSome, decode_isSome, h]
  rfl

theorem exists_decode_of_wellFormed {cmd : CmdWord} (h : CmdWord.wellFormed cmd = true) : ∃ i, decode cmd = some i := by
  rwa [← decode_isSome, Option.isSome_iff_exists] at h

/-! ### A word that decodes is its command's encoding (R76) -/

/-- A word is its five fields, packed again. -/
theorem packWord_fields (cmd : CmdWord) :
    packWord (BitVec.ofBool (fieldDP cmd)) (fieldD cmd) (fieldH cmd) (fieldW cmd) (fieldOpc cmd) = cmd := by
  apply word_ext
  · exact fieldOpc_packWord ..
  · exact fieldW_packWord ..
  · exact fieldH_packWord ..
  · exact fieldD_packWord ..
  · simp [fieldDP_packWord]

/-- The operand fields are parts of the bits 63:8. -/
theorem operandFields_of_unused {cmd : CmdWord} (h : fieldUnused cmd = 0#56) :
    fieldDP cmd = false ∧ fieldD cmd = 0#23 ∧ fieldH cmd = 0#16 ∧ fieldW cmd = 0#16 := by
  have hbit : ∀ i, 8 ≤ i → i < 64 → cmd.getLsbD i = false := by
    intro i hlow hhigh
    have hi := congrArg (fun v => v.getLsbD (i - 8)) h
    have hlt : i - 8 < 56 := by omega
    have hadd : 8 + (i - 8) = i := by omega
    simpa [fieldUnused, hlt, hadd] using hi
  have hfield : ∀ start n, 8 ≤ start → start + n ≤ 64 → cmd.extractLsb' start n = 0#n := by
    intro start n hlow hhigh
    apply BitVec.eq_of_getLsbD_eq
    intro i hi
    simp [BitVec.getLsbD_extractLsb', hbit (start + i) (by omega) (by omega)]
  exact ⟨hbit 63 (by decide) (by decide), hfield 40 23 (by decide) (by decide), hfield 24 16 (by decide) (by decide),
    hfield 8 16 (by decide) (by decide)⟩

/-- A word that decodes to a command without operands is its opcode alone. -/
theorem encode_of_decodeNoArg {cmd : CmdWord} {i j : Instr} (h : decodeNoArg cmd j = some i)
    (hj : encode j = packWord 0#1 0#23 0#16 0#16 (fieldOpc cmd)) : encode i = cmd := by
  unfold decodeNoArg at h
  split at h
  · next hun =>
    cases h
    obtain ⟨hdp, hd, hh, hw⟩ := operandFields_of_unused hun
    have hpack := packWord_fields cmd
    rw [hdp, hd, hh, hw] at hpack
    exact hj.trans hpack
  · cases h

theorem encode_of_decodeConfigure {cmd : CmdWord} {i : Instr} (hopc : fieldOpc cmd = 0x01#8)
    (h : decodeConfigure cmd = some i) : encode i = cmd := by
  have hpack := packWord_fields cmd
  rw [hopc] at hpack
  unfold decodeConfigure at h
  split at h
  · next hdp =>
    cases h
    rwa [hdp] at hpack
  · next hdp =>
    rw [Bool.not_eq_true] at hdp
    split at h
    · next hd =>
      cases h
      rwa [hdp, hd] at hpack
    · cases h

/-- A word that decodes is the one word of its command, so the decoder ignores no bit. -/
theorem encode_of_decode {cmd : CmdWord} {i : Instr} (h : decode cmd = some i) : encode i = cmd := by
  unfold decode at h
  split at h
  · next h1 => exact encode_of_decodeConfigure h1 h
  split at h
  · next h2 => exact encode_of_decodeNoArg h (by rw [h2, encode])
  split at h
  · next h3 => exact encode_of_decodeNoArg h (by rw [h3, encode])
  split at h
  · next h4 => exact encode_of_decodeNoArg h (by rw [h4, encode])
  split at h
  · next h5 => exact encode_of_decodeNoArg h (by rw [h5, encode])
  · cases h

end Sys2Proof

namespace Sys2Proof.Machine

/-! ### The illegal word (R75) -/

/-- A word that does not decode raises ILLEGAL_COMMAND, precisely. -/
theorem execute_of_illegal {cmd : CmdWord} {s : State} (hs : s.status.fault = .none) (h : decode cmd = none) :
    execute cmd s = .next (s.afterFault .illegalCommand) := by
  unfold execute
  rw [h]
  exact accept_of_none hs _

/-- A word that decodes runs as its command (R76). -/
theorem execute_of_legal {cmd : CmdWord} {i : Instr} (h : decode cmd = some i) (s : State) : execute cmd s = exec i s := by
  unfold execute
  rw [h]

/-- Settles O4: the decoder fails on exactly the words that break R74 or R75, and what it accepts is its command's encoding. -/
theorem illegalWordTakesFault : Obligations.IllegalWordTakesFault := by
  unfold Obligations.IllegalWordTakesFault
  intro cmd s hs
  constructor
  · intro hill
    exact execute_of_illegal hs (decode_eq_none_of_not_wellFormed hill)
  · intro hwf
    obtain ⟨i, hi⟩ := exists_decode_of_wellFormed hwf
    exact ⟨i, hi, encode_of_decode hi⟩

/-! ### The response word (R77) -/

/-- What a command that completes carries in its response. -/
def completionPayload (s : State) : Instr → Payload
  | .configureDefault _ _ => .empty
  | .configureDelay _ _ _ => .empty
  | .addFrame => .empty
  | .finish => .empty
  | .readOutput => .bytes s.outRead
  | .getBlob => .blob s.outRead .imageGif

theorem completedState_responses (s : State) (i : Instr) :
    (completedState s i).responses = s.responses ++ [okResponse (completionPayload s i)] := by
  cases i <;> rfl

/-- A command that completes does not write STATUS.FAULT. -/
theorem completedState_fault (s : State) (i : Instr) : (completedState s i).status.fault = s.status.fault := by
  cases i <;> rfl

/-- A command that faults answers with its fault's code and no data. -/
theorem exec_response_of_fault {i : Instr} {s t : State} (hs : s.status.fault = .none) (h : exec i s = .next t)
    (ht : t.status.fault ≠ .none) : t.responses = s.responses ++ [faultResponse t.status.fault] := by
  rcases exec_next_cases h with ⟨hne, -⟩ | ⟨f, -, -, rfl⟩ | ⟨-, -, hfull⟩ | ⟨-, rfl⟩
  · exact absurd hs hne
  · rfl
  · cases hfull
    rfl
  · exact absurd ((completedState_fault s i).trans hs) ht

/-- Every accepted word answers once: with its fault's code, or with 0 and the data of the command it decodes to. -/
theorem execute_response {cmd : CmdWord} {s t : State} (hs : s.status.fault = .none) (h : execute cmd s = .next t) :
    (t.status.fault ≠ .none ∧ t.responses = s.responses ++ [faultResponse t.status.fault]) ∨
    (t.status.fault = .none ∧
      ∃ i, decode cmd = some i ∧ t.responses = s.responses ++ [okResponse (completionPayload s i)]) := by
  cases hdec : decode cmd with
  | none =>
    cases (execute_of_illegal hs hdec).symm.trans h
    exact .inl ⟨by simp [State.afterFault], rfl⟩
  | some i =>
    rw [execute_of_legal hdec] at h
    by_cases ht : t.status.fault = .none
    · obtain ⟨-, rfl⟩ := exec_next_of_no_fault h ht
      exact .inr ⟨ht, i, rfl, completedState_responses s i⟩
    · exact .inl ⟨ht, exec_response_of_fault hs h ht⟩

/-- The fault code in the low half of the response word. -/
theorem code_setWidth (f : FaultCode) : (FaultCode.code f).setWidth 8 = 0#4 ++ FaultCode.code f := by
  cases f <;> rfl

/-- Settles O24: every ending of an accepted word gives one response, and a FAULTED block leaves the state as it was. -/
theorem responseWord : Obligations.ResponseWord := by
  unfold Obligations.ResponseWord
  intro cmd s t h
  constructor
  · intro hs
    cases (execute_eq_next_of_fault cmd hs).symm.trans h
    rfl
  · intro hs
    rcases execute_response hs h with ⟨ht, hresp⟩ | ⟨ht, i, hdec, hresp⟩
    · rw [hresp, faultResponse, code_setWidth, if_pos ht]
    · rw [hresp, ht, hdec]
      cases i <;> simp [okResponse, completionPayload, FaultCode.code]

end Sys2Proof.Machine
end

section
/-! The quantizer's own statements (41_palette_quantizer.md): RANGE, SELECT, SPLIT, MEAN, MAP and the empty frame. -/

namespace Sys2Proof.Machine

/-! ### RANGE (R102) -/

/-- A scan over a channel ends at a member's value, if it ends at its start value only where the members have that value. -/
theorem exists_mem_channel_eq {b : Bucket} {c : Channel} {start last : Nat} (hb : b ≠ [])
    (hlast : last = start ∨ last ∈ b.map (Rgb.channel · c)) (hstart : ∀ s ∈ b, last = start → s.channel c = last) :
    ∃ s ∈ b, s.channel c = last := by
  rcases hlast with heq | hmem
  · obtain ⟨s, hs⟩ := List.exists_mem_of_ne_nil b hb
    exact ⟨s, hs, hstart s hs heq⟩
  · exact List.mem_map.mp hmem

/-- Settles O35: the scans start at the ends 0 and 255 of a channel's values, so both end at a member's value. -/
theorem rangeIsMaxMinusMin : Obligations.RangeIsMaxMinusMin := by
  unfold Obligations.RangeIsMaxMinusMin
  intro b c hb
  obtain ⟨hupper, -, hmax⟩ := foldl_max_spec (b.map (Rgb.channel · c)) 0
  obtain ⟨hlower, -, hmin⟩ := foldl_min_spec (b.map (Rgb.channel · c)) 255
  rw [List.forall_mem_map] at hupper hlower
  obtain ⟨hi, hhi, hhieq⟩ := exists_mem_channel_eq hb hmax fun s hs hzero => by
    have hle := hupper s hs
    omega
  obtain ⟨lo, hlo, hloeq⟩ := exists_mem_channel_eq hb hmin fun s hs htop => by
    have hge := hlower s hs
    have hle := s.channel_le c
    omega
  have hrange : bucketRange b c = hi.channel c - lo.channel c := by rw [bucketRange, hhieq, hloeq]
  have hle := hi.channel_le c
  exact ⟨hi, hhi, lo, hlo, fun s hs => ⟨hloeq ▸ hlower s hs, hhieq ▸ hupper s hs⟩, hrange, by omega⟩

/-! ### SELECT (R103) -/

/-- SELECT's order of candidates: by slot, and by channel within a slot. -/
def CandidateBefore (x y : Nat × Nat × Channel) : Prop :=
  x.2.1 < y.2.1 ∨ (x.2.1 = y.2.1 ∧ channelIndex x.2.2 < channelIndex y.2.2)

theorem CandidateBefore.asymm {x y : Nat × Nat × Channel} (h : CandidateBefore x y) : ¬ CandidateBefore y x := by
  unfold CandidateBefore at *
  omega

theorem CandidateBefore.irrefl (x : Nat × Nat × Channel) : ¬ CandidateBefore x x := fun h => h.asymm h

theorem splitCandidates_slot_ge {j : Nat} {bs : List Bucket} {x : Nat × Nat × Channel} (h : x ∈ splitCandidates j bs) :
    j ≤ x.2.1 := by
  obtain ⟨k, b, -, -, hx⟩ := (mem_splitCandidates bs j x).mp h
  rw [hx]
  exact Nat.le_add_right j k

/-- SELECT looks at its candidates in order. -/
theorem splitCandidates_ordered (bs : List Bucket) (j : Nat) : (splitCandidates j bs).Pairwise CandidateBefore := by
  induction bs generalizing j with
  | nil => exact .nil
  | cons b bs ih =>
    rw [splitCandidates, List.pairwise_append]
    refine ⟨?_, ih (j + 1), ?_⟩
    · split
      · simp [CandidateBefore, channelIndex]
      · exact .nil
    · intro x hx y hy
      have hslot : x.2.1 = j := by
        split at hx
        · simp only [List.mem_cons, List.not_mem_nil, or_false] at hx
          rcases hx with rfl | rfl | rfl <;> rfl
        · cases hx
      have hlater := splitCandidates_slot_ge hy
      exact .inl (by omega)

/-- The candidates of SELECT: every channel of every bucket of two members or more. -/
theorem mem_splitCandidates_of_getElem? {bs : List Bucket} {j : Nat} {b : Bucket} (hb : bs[j]? = some b)
    (hlen : 2 ≤ b.length) (c : Channel) : (bucketRange b c, j, c) ∈ splitCandidates 0 bs :=
  (mem_splitCandidates bs 0 _).mpr ⟨j, b, hb, hlen, by simp⟩

theorem getElem?_of_mem_splitCandidates {bs : List Bucket} {r j : Nat} {c : Channel}
    (h : (r, j, c) ∈ splitCandidates 0 bs) : ∃ b, bs[j]? = some b ∧ 2 ≤ b.length ∧ r = bucketRange b c := by
  obtain ⟨k, b, hb, hlen, hx⟩ := (mem_splitCandidates bs 0 _).mp h
  simp only [Nat.zero_add, Prod.mk.injEq, and_true] at hx
  obtain ⟨hr, rfl⟩ := hx
  exact ⟨b, hb, hlen, hr⟩

/-- SELECT without an answer found no candidate of a positive range. -/
theorem candidate_range_of_selectSplit_none {bs : List Bucket} (h : selectSplit bs = none) :
    ∀ x ∈ splitCandidates 0 bs, x.1 = 0 := by
  rcases widest_cases (splitCandidates 0 bs) 0 none with ⟨-, hall⟩ | ⟨pre, r, j, c, post, -, hw, -⟩
  · exact fun x hx => Nat.le_zero.mp (hall x hx)
  · cases h.symm.trans hw

/-- SELECT's answer is a candidate of positive range, at least as wide as every other and wider than every earlier one. -/
theorem candidate_of_selectSplit_some {bs : List Bucket} {j : Nat} {c : Channel} (h : selectSplit bs = some (j, c)) :
    ∃ r, (r, j, c) ∈ splitCandidates 0 bs ∧ 0 < r ∧
      ∀ x ∈ splitCandidates 0 bs, x.1 ≤ r ∧ (CandidateBefore x (r, j, c) → x.1 < r) := by
  rcases widest_cases (splitCandidates 0 bs) 0 none with ⟨hw, -⟩ | ⟨pre, r, j', c', post, hl, hw, hpos, hpre, hpost⟩
  · cases hw.symm.trans h
  · cases hw.symm.trans h
    have hord := splitCandidates_ordered bs 0
    rw [hl] at hord ⊢
    obtain ⟨hlater, -⟩ := List.pairwise_cons.mp (List.pairwise_append.mp hord).2.1
    refine ⟨r, by simp, hpos, fun x hx => ?_⟩
    rcases List.mem_append.mp hx with hx | hx
    · exact ⟨(hpre x hx).le, fun _ => hpre x hx⟩
    rcases List.mem_cons.mp hx with rfl | hx
    · exact ⟨le_rfl, fun hbefore => absurd hbefore (CandidateBefore.irrefl _)⟩
    · exact ⟨hpost x hx, fun hbefore => absurd hbefore (hlater x hx).asymm⟩

/-- Settles O36: the candidates are in order, and the scan replaces its best only by a strictly wider one. -/
theorem selectTakesFirstWidest : Obligations.SelectTakesFirstWidest := by
  unfold Obligations.SelectTakesFirstWidest
  intro bs
  constructor
  · intro hnone j b c hb hlen
    exact candidate_range_of_selectSplit_none hnone _ (mem_splitCandidates_of_getElem? hb hlen c)
  · intro j c hsome
    obtain ⟨r, hmem, hpos, hwidest⟩ := candidate_of_selectSplit_some hsome
    obtain ⟨b, hb, hlen, rfl⟩ := getElem?_of_mem_splitCandidates hmem
    exact ⟨b, hb, hlen, hpos, fun j' b' c' hb' hlen' => hwidest _ (mem_splitCandidates_of_getElem? hb' hlen' c')⟩

/-! ### SPLIT (R105) -/

@[simp] theorem sortByChannel_length (b : Bucket) (c : Channel) : (sortByChannel b c).length = b.length :=
  (sortByChannel_perm b c).length_eq

/-- SPLIT of a bucket that is there: the halves of its sorted members. -/
theorem splitBucket_of_getElem? {bs : List Bucket} {bb : Nat} {b : Bucket} (hb : bs[bb]? = some b) (bc : Channel) :
    splitBucket bs bb bc =
      bs.set bb ((sortByChannel b bc).take (b.length / 2)) ++ [(sortByChannel b bc).drop (b.length / 2)] := by
  simp [splitBucket, List.getD_eq_getElem?_getD, hb]

/-- Settles O37: the two halves together are the sorted bucket, whose sort is an ascending and stable permutation. -/
theorem splitHalvesSortedBucket : Obligations.SplitHalvesSortedBucket := by
  unfold Obligations.SplitHalvesSortedBucket
  intro bs bb bc b hb _
  refine ⟨_, _, splitBucket_of_getElem? hb bc, ?_, ?_, ?_⟩
  · rw [List.length_take, sortByChannel_length]
    omega
  · rw [List.length_drop, sortByChannel_length]
  · rw [List.take_append_drop]
    exact ⟨sortByChannel_perm b bc, sortByChannel_ascending b bc, sortByChannel_filter b bc⟩

/-! ### MEAN (R106) -/

theorem channelSum_le (b : Bucket) (c : Channel) : channelSum b c ≤ b.length * 255 := by
  have hle : ∀ x ∈ b.map (Rgb.channel · c), x ≤ 255 := List.forall_mem_map.mpr fun s _ => s.channel_le c
  simpa [channelSum] using List.sum_le_card_nsmul _ 255 hle

/-- A rounded quotient is at most a whole bound of the quotient (00_scope.md R13). -/
theorem roundHalfUp_le {a b m : Nat} (hb : 0 < b) (h : a ≤ b * m) : roundHalfUp a b ≤ m := by
  have hlt : 2 * a + b < (m + 1) * (2 * b) := by linarith
  exact Nat.lt_succ_iff.mp ((Nat.div_lt_iff_lt_mul (by omega)).mpr hlt)

/-- MEAN's rounded quotients fit their 8 bits, so nothing of them is cut off. -/
theorem mean_channel {b : Bucket} (hb : b ≠ []) (c : Channel) :
    (mean b).channel c = roundHalfUp (channelSum b c) b.length := by
  have hpos : 0 < b.length := List.length_pos_iff.mpr hb
  have hfits : roundHalfUp (channelSum b c) b.length < 2 ^ 8 :=
    Nat.lt_succ_iff.mpr (roundHalfUp_le hpos (channelSum_le b c))
  rw [mean, if_neg hpos.ne']
  cases c <;> exact (BitVec.toNat_ofNat _ _).trans (Nat.mod_eq_of_lt hfits)

/-- Settles O39: the empty bucket is MEAN's own case, and the rounded mean of 8-bit values is an 8-bit value. -/
theorem meanRoundsHalfUp : Obligations.MeanRoundsHalfUp := by
  unfold Obligations.MeanRoundsHalfUp
  exact ⟨rfl, fun b c hb => mean_channel hb c⟩

/-! ### MAP (R108) -/

/-- The distance over the integers (00_scope.md R13). -/
theorem distance_eq (a b : Rgb) : (distance a b : Int) =
    ((a.r.toNat : Int) - b.r.toNat) ^ 2 + ((a.g.toNat : Int) - b.g.toNat) ^ 2 + ((a.b.toNat : Int) - b.b.toNat) ^ 2 := by
  simp only [distance, Nat.cast_add, sqDiff_eq]

/-- The index of a pixel is the lowest one of a nearest entry. -/
theorem nearest_spec {pal : List Rgb} (hpal : pal ≠ []) (px : Rgb) :
    ∃ best, pal[nearest pal px]? = some best ∧
      ∀ k o, pal[k]? = some o →
        distance px best ≤ distance px o ∧ (k < nearest pal px → distance px best < distance px o) := by
  cases pal with
  | nil => exact absurd rfl hpal
  | cons q qs =>
    refine nearestFrom_spec px qs [q] (distance px q) 0 ⟨q, rfl, rfl, fun k o hk => ?_⟩
    obtain ⟨-, rfl⟩ : k = 0 ∧ q = o := by simpa [List.getElem?_cons] using hk
    exact ⟨le_rfl, fun hlt => absurd hlt (Nat.not_lt_zero _)⟩

theorem nearest_lt_length {pal : List Rgb} (hpal : pal ≠ []) (px : Rgb) : nearest pal px < pal.length := by
  obtain ⟨best, hbest, -⟩ := nearest_spec hpal px
  exact (List.getElem?_eq_some_iff.mp hbest).1

/-- A palette of at most 256 entries has indices that fit 8 bits. -/
theorem toNat_ofNat_nearest {pal : List Rgb} (hpal : pal ≠ []) (hlen : pal.length ≤ 256) (px : Rgb) :
    (BitVec.ofNat 8 (nearest pal px)).toNat = nearest pal px :=
  (BitVec.toNat_ofNat _ _).trans (Nat.mod_eq_of_lt ((nearest_lt_length hpal px).trans_le hlen))

theorem mapPixels_getElem? {px : List Rgb} {p : Nat} {q : Rgb} (hq : px[p]? = some q) (pal : List Rgb) :
    (mapPixels pal px)[p]? = some (BitVec.ofNat 8 (nearest pal q)) := by
  rw [mapPixels, List.getElem?_map, hq]
  rfl

/-- Settles O40: MAP is the scan of `nearest` at every pixel, and its index fits the 8 bits of IDX. -/
theorem nearestLowestIndex : Obligations.NearestLowestIndex := by
  unfold Obligations.NearestLowestIndex
  refine ⟨distance_eq, fun pal px hpal hlen => ⟨mapPixels_length pal px, fun p q hq => ?_⟩⟩
  obtain ⟨best, hbest, hnearest⟩ := nearest_spec hpal q
  refine ⟨_, best, mapPixels_getElem? hq pal, ?_⟩
  rw [toNat_ofNat_nearest hpal hlen]
  exact ⟨hbest, hnearest⟩

/-! ### No samples (R107) -/

/-- QUANTIZE of a frame without pixels takes the case of no samples, whatever working state it finds. -/
theorem quantize_of_no_pixels (p : Nat) (w : Work) :
    (quantize p [] w).pal = [{ r := 0#8, g := 0#8, b := 0#8 }] ∧ (quantize p [] w).idx = [] := by
  have hs : (sample p []).length = 0 := List.length_eq_zero_iff.mpr ((sample_eq_nil_iff p []).mpr rfl)
  rw [quantize, if_pos hs]
  exact ⟨rfl, rfl⟩

/-- Settles O42: no pixels give no samples. -/
theorem zeroSamplesYieldBlack : Obligations.ZeroSamplesYieldBlack := by
  unfold Obligations.ZeroSamplesYieldBlack
  exact quantize_of_no_pixels 0

end Sys2Proof.Machine
end

section
/-! The serializer's own statements (42_gif_frame_serializer.md): the one-time header, the frame head, the width of a palette's
indices and the colour table. -/

namespace Sys2Proof.Machine

/-! ### The colour table (R135) -/

/-- An entry of the colour table is the palette's colour there, and black past its end. -/
theorem tableEntry_eq (pal : List Rgb) (j : Nat) :
    tableEntry pal j = colorEntry (pal.getD j { r := 0#8, g := 0#8, b := 0#8 }) := by
  rw [tableEntry, List.getD_eq_getElem?_getD]
  cases pal[j]? <;> rfl

/-- Byte k of entry j of the colour table, of three bytes an entry. -/
theorem colorTable_getElem? (pal : List Rgb) {bits j k : Nat} (hj : j < 2 ^ bits) (hk : k < 3) :
    (colorTable pal bits)[3 * j + k]? = (colorEntry (pal.getD j { r := 0#8, g := 0#8, b := 0#8 }))[k]? := by
  rw [← tableEntry_eq]
  exact (flatMap_range_three (tableEntry pal) (tableEntry_length pal) _).2 j hj k hk

/-- Settles O46: the table is its three-byte entries one after the other. -/
theorem colorTableEntries : Obligations.ColorTableEntries := by
  unfold Obligations.ColorTableEntries
  intro pal bits
  refine ⟨colorTable_length pal bits, fun j hj => ⟨?_, ?_, ?_⟩⟩
  · exact colorTable_getElem? pal hj (k := 0) (by decide)
  · exact colorTable_getElem? pal hj (k := 1) (by decide)
  · exact colorTable_getElem? pal hj (k := 2) (by decide)

/-! ### The one-time header (R130, R132) -/

/-- The logical screen descriptor, each dimension low byte first. -/
theorem screenDescriptor_eq {w h : Nat} (hw : w ≤ 65535) (hh : h ≤ 65535) :
    screenDescriptor w h =
      [BitVec.ofNat 8 (w % 256), BitVec.ofNat 8 (w / 256), BitVec.ofNat 8 (h % 256), BitVec.ofNat 8 (h / 256),
        0x00#8, 0x00#8, 0x00#8] := by
  rw [screenDescriptor, le16_eq hw, le16_eq hh]
  rfl

/-- Settles O43: beside the descriptor's two dimensions every byte is fixed. -/
theorem headerLayout : Obligations.HeaderLayout := by
  unfold Obligations.HeaderLayout
  intro w h hw hh
  rw [headerBytes, screenDescriptor_eq hw hh]
  rfl

/-! ### The frame head (R133, R134, R136, R137) -/

/-- The graphic control extension, the delay low byte first. -/
theorem graphicControl_eq {cs : Nat} (hcs : cs ≤ 65535) :
    graphicControl cs =
      [0x21#8, 0xF9#8, 0x04#8, 0x00#8, BitVec.ofNat 8 (cs % 256), BitVec.ofNat 8 (cs / 256), 0x00#8, 0x00#8] := by
  rw [graphicControl, le16_eq hcs]
  rfl

/-- The packed byte's flag 0x80 and its low bits do not overlap, so the OR of R134 is a sum. -/
theorem packedByte_eq {bits : Nat} (hbits : bits ≤ 8) : 0x80 ||| (bits - 1) = 0x80 + (bits - 1) :=
  (Nat.two_pow_add_eq_or_of_lt (i := 7) (by omega) 1).symm

/-- The image descriptor at (0,0), each dimension low byte first. -/
theorem imageDescriptor_eq {w h bits : Nat} (hw : w ≤ 65535) (hh : h ≤ 65535) (hbits : bits ≤ 8) :
    imageDescriptor w h bits =
      [0x2C#8, 0x00#8, 0x00#8, 0x00#8, 0x00#8,
        BitVec.ofNat 8 (w % 256), BitVec.ofNat 8 (w / 256), BitVec.ofNat 8 (h % 256), BitVec.ofNat 8 (h / 256),
        BitVec.ofNat 8 (0x80 + (bits - 1))] := by
  rw [imageDescriptor, le16_eq hw, le16_eq hh, packedByte_eq hbits]
  rfl

/-- A delay in range fits the 16-bit field of the graphic control extension (R136). -/
theorem delayCs_le {delayMs : Nat} (hd : delayMs ≤ 655354) : delayCs delayMs ≤ 65535 :=
  not_lt.mp (mt (delay_overflow_iff delayMs).mp (not_lt.mpr hd))

@[simp] theorem frameHead_length (delayMs w h : Nat) (pal : List Rgb) :
    (frameHead delayMs w h pal).length = 18 + 3 * 2 ^ paletteBits pal.length := by
  rw [frameHead, List.length_append, List.length_append, graphicControl_length, imageDescriptor_length, colorTable_length]

/-- Settles O44: before the colour table only the delay, the dimensions and the packed byte are not fixed. -/
theorem frameHeadLayout : Obligations.FrameHeadLayout := by
  unfold Obligations.FrameHeadLayout
  intro delayMs w h pal hd hw hh
  have hcs : (2 * delayMs + 10) / 20 ≤ 65535 := delayCs_le hd
  have hdelay : delayCs delayMs = (2 * delayMs + 10) / 20 := rfl
  obtain ⟨-, hbits⟩ := paletteBits_bounds pal.length
  refine ⟨hcs, ?_, frameHead_length delayMs w h pal⟩
  rw [frameHead, hdelay, graphicControl_eq hcs, imageDescriptor_eq hw hh hbits]
  rfl

/-! ### PALETTE_BITS (R131) -/

theorem le_two_pow_paletteBits {n : Nat} (hn : n ≤ 256) : n ≤ 2 ^ paletteBits n := by
  unfold paletteBits
  split_ifs <;> omega

/-- Above the least width 2, one bit fewer than PALETTE_BITS is too few. -/
theorem two_pow_paletteBits_pred_lt {n : Nat} (h : 2 < paletteBits n) : 2 ^ (paletteBits n - 1) < n := by
  unfold paletteBits at *
  split_ifs at * <;> omega

/-- PALETTE_BITS is at most every width of two bits or more that suffices. -/
theorem paletteBits_le {n b : Nat} (hb : 2 ≤ b) (hn : n ≤ 2 ^ b) : paletteBits n ≤ b := by
  by_contra hlt
  have hfew : 2 ^ (paletteBits n - 1) < n := two_pow_paletteBits_pred_lt (by omega)
  have hmono : 2 ^ b ≤ 2 ^ (paletteBits n - 1) := Nat.pow_le_pow_right (by decide) (by omega)
  omega

/-- Settles O45: the width suffices, and a smaller one would be at most the one too few. -/
theorem paletteBitsSmallest : Obligations.PaletteBitsSmallest := by
  unfold Obligations.PaletteBitsSmallest
  intro n _ hn
  obtain ⟨hlow, hhigh⟩ := paletteBits_bounds n
  exact ⟨hlow, hhigh, le_two_pow_paletteBits hn, fun b => paletteBits_le⟩

end Sys2Proof.Machine
end

section
/-! The compressor's own statements (43_lzw_compressor.md): DICT_RESET, PUT_BYTE, EMIT_CODE, MATCH and MISMATCH, FLUSH. -/

namespace Sys2Proof.Machine

/-! ### DICT_RESET (R152) -/

/-- A sequence that is no literal is no key of a fresh dictionary. -/
theorem literalDict_lookup_eq_none {mcs : Nat} (h8 : mcs ≤ 8) {seq : List Byte}
    (hseq : ∀ v : Byte, v.toNat < 2 ^ mcs → seq ≠ [v]) : (literalDict mcs).lookup seq = none := by
  refine Option.eq_none_iff_forall_ne_some.mpr fun code hcode => ?_
  obtain ⟨hlit, hlt⟩ := literalDict_key hcode
  have hle : 2 ^ mcs ≤ 2 ^ 8 := Nat.pow_le_pow_right (by decide) h8
  have hfits : (BitVec.ofNat 8 code).toNat = code := (BitVec.toNat_ofNat _ _).trans (Nat.mod_eq_of_lt (by omega))
  exact hseq _ (hfits.symm ▸ hlt) hlit

/-- Settles O49: the keys of a fresh dictionary are its literals. -/
theorem dictResetState : Obligations.DictResetState := by
  unfold Obligations.DictResetState
  intro mcs c h2 h8
  exact ⟨rfl, rfl, rfl, literalDict_lookup h2 h8, fun seq => literalDict_lookup_eq_none h8⟩

/-! ### PUT_BYTE (R154) -/

/-- PUT_BYTE of the 255th byte writes the sub-block. -/
theorem putByte_of_full {z : Lzw} (b : Byte) (h : z.pack.sb.length + 1 = 255) :
    putByte b z =
      { z with pack := { z.pack with sb := [] }, appended := z.appended ++ (0xFF#8 :: (z.pack.sb ++ [b])) } := by
  have hlen : (z.pack.sb ++ [b]).length = 255 := List.length_append.trans h
  simp only [putByte, subblockMax, subBlock, hlen, if_true]

/-- PUT_BYTE of any other byte only gathers it. -/
theorem putByte_of_not_full {z : Lzw} (b : Byte) (h : z.pack.sb.length + 1 ≠ 255) :
    putByte b z = { z with pack := { z.pack with sb := z.pack.sb ++ [b] } } :=
  if_neg (List.length_append.trans_ne h)

/-- Settles O51: the two cases of PUT_BYTE. -/
theorem putByteClosesAt255 : Obligations.PutByteClosesAt255 := by
  unfold Obligations.PutByteClosesAt255
  exact fun b z => ⟨putByte_of_full b, putByte_of_not_full b⟩

/-! ### The pending bits, which PUT_BYTE neither reads nor writes -/

/-- BITBUF <- buf and BITCNT <- cnt. -/
def setBits (buf cnt : Nat) (z : Lzw) : Lzw := { z with pack := { z.pack with bitbuf := buf, bitcnt := cnt } }

@[simp] theorem setBits_bitbuf (buf cnt : Nat) (z : Lzw) : (setBits buf cnt z).pack.bitbuf = buf := rfl
@[simp] theorem setBits_bitcnt (buf cnt : Nat) (z : Lzw) : (setBits buf cnt z).pack.bitcnt = cnt := rfl

theorem putByte_setBits (b : Byte) (buf cnt : Nat) (z : Lzw) :
    putByte b (setBits buf cnt z) = setBits buf cnt (putByte b z) := by
  unfold putByte
  dsimp only [setBits]
  split <;> rfl

/-- PUT_BYTE of each byte in turn. -/
def putBytes (bs : List Byte) (z : Lzw) : Lzw := bs.foldl (fun z b => putByte b z) z

/-! ### EMIT_CODE (R153) -/

/-- The n low bytes of a number, low byte first. -/
def lowBytes (n v : Nat) : List Byte := (List.range n).map fun i => BitVec.ofNat 8 (v / 256 ^ i % 256)

theorem lowBytes_succ (n v : Nat) : lowBytes (n + 1) v = BitVec.ofNat 8 (v % 256) :: lowBytes n (v / 256) := by
  simp [lowBytes, List.range_succ_eq_map, Nat.div_div_eq_div_mul, Nat.pow_succ']

/-- One round of EMIT_CODE's loop puts out the low byte. -/
theorem emitLowByte_setBits (v cnt : Nat) (z : Lzw) :
    emitLowByte (setBits v cnt z) = setBits (v / 256) (cnt - 8) (putByte (BitVec.ofNat 8 (v % 256)) z) := by
  have hlow : v &&& 0xFF = v % 256 := and_low_byte v
  have hrest : v >>> 8 = v / 256 := Nat.shiftRight_eq_div_pow v 8
  simp only [emitLowByte, setBits_bitbuf, setBits_bitcnt, putByte_setBits, hlow, hrest]
  rfl

/-- n rounds of EMIT_CODE's loop put out the n low bytes. -/
theorem emitBytes_setBits (n v cnt : Nat) (z : Lzw) :
    emitBytes n (setBits v cnt z) = setBits (v / 256 ^ n) (cnt - 8 * n) (putBytes (lowBytes n v) z) := by
  induction n generalizing v cnt z with
  | zero => simp [emitBytes, putBytes, lowBytes]
  | succ n ih =>
    have hbuf : v / 256 / 256 ^ n = v / 256 ^ (n + 1) := by rw [Nat.div_div_eq_div_mul, Nat.pow_succ']
    have hcnt : cnt - 8 - 8 * n = cnt - 8 * (n + 1) := by omega
    rw [emitBytes, emitLowByte_setBits, ih, lowBytes_succ, hbuf, hcnt]
    rfl

/-- A code put above the pending bits does not overlap them, so the OR of R153 is a sum. -/
theorem or_shiftLeft_eq_add {buf cnt : Nat} (c : Nat) (h : buf < 2 ^ cnt) : buf ||| c <<< cnt = buf + c * 2 ^ cnt := by
  rw [Nat.or_comm, ← Nat.shiftLeft_add_eq_or_of_lt h, Nat.shiftLeft_eq, Nat.add_comm]

/-- EMIT_CODE: every complete byte of the pending bits with the code above them goes out, and the rest stays pending. -/
theorem emitCode_eq {c : Nat} {z : Lzw} (h : z.pack.bitbuf < 2 ^ z.pack.bitcnt) :
    emitCode c z =
      setBits ((z.pack.bitbuf + c * 2 ^ z.pack.bitcnt) / 256 ^ ((z.pack.bitcnt + z.comp.codeSize) / 8))
        ((z.pack.bitcnt + z.comp.codeSize) % 8)
        (putBytes (lowBytes ((z.pack.bitcnt + z.comp.codeSize) / 8) (z.pack.bitbuf + c * 2 ^ z.pack.bitcnt)) z) := by
  have hcnt (m : Nat) : m % 8 = m - 8 * (m / 8) := by omega
  rw [hcnt, ← emitBytes_setBits, ← or_shiftLeft_eq_add c h]
  rfl

/-- A value of cnt bits put above the pending bits leaves a value of cnt + size bits. -/
theorem pending_add_code_lt {buf cnt c size : Nat} (hbuf : buf < 2 ^ cnt) (hc : c < 2 ^ size) :
    buf + c * 2 ^ cnt < 2 ^ (cnt + size) := by
  calc buf + c * 2 ^ cnt < 2 ^ cnt + c * 2 ^ cnt := Nat.add_lt_add_right hbuf _
    _ = (c + 1) * 2 ^ cnt := by ring
    _ ≤ 2 ^ size * 2 ^ cnt := Nat.mul_le_mul_right _ hc
    _ = 2 ^ (cnt + size) := by rw [Nat.mul_comm, Nat.pow_add]

/-- Of m bits, what is left above the complete bytes is m mod 8 bits. -/
theorem div_complete_bytes_lt {v m : Nat} (h : v < 2 ^ m) : v / 256 ^ (m / 8) < 2 ^ (m % 8) := by
  apply Nat.div_lt_of_lt_mul
  calc v < 2 ^ m := h
    _ = 2 ^ (8 * (m / 8) + m % 8) := by rw [Nat.div_add_mod]
    _ = 256 ^ (m / 8) * 2 ^ (m % 8) := by rw [Nat.pow_add, Nat.pow_mul]

/-- Settles O50: the loop of EMIT_CODE puts out the low bytes, and PUT_BYTE does not touch the pending bits. -/
theorem emitCodePacksBits : Obligations.EmitCodePacksBits := by
  unfold Obligations.EmitCodePacksBits
  intro c z hc hpending
  refine ⟨?_, ?_, ?_, ?_, ?_, emitCode_comp c z⟩ <;> rw [emitCode_eq hpending]
  · rfl
  · rfl
  · exact div_complete_bytes_lt (pending_add_code_lt hpending hc)
  · rfl
  · rfl

/-! ### MATCH and MISMATCH (R155 to R157) -/

theorem dictHas_of_lookup_none {d : Dict} {seq : List Byte} (h : d.lookup seq = none) : dictHas d seq = false := by
  rw [dictHas, h]
  rfl

/-- MATCH (R155). -/
theorem matchStep_of_key {z : Lzw} {k : Byte} (mcs : Nat) (h : dictHas z.comp.dict (z.comp.cur ++ [k]) = true) :
    matchStep mcs z k = onComp (setCur (z.comp.cur ++ [k])) z :=
  if_pos h

/-- MISMATCH with a code left to assign (R156). -/
theorem matchStep_of_free {z : Lzw} {k : Byte} {code : Nat} (mcs : Nat) (hcur : z.comp.dict.lookup z.comp.cur = some code)
    (hkey : z.comp.dict.lookup (z.comp.cur ++ [k]) = none) (hfree : z.comp.nextCode < 4096) :
    matchStep mcs z k = onComp (fun c => setCur [k] (insertEntry k c)) (emitCode code z) := by
  have hfree' : (emitCode code z).comp.nextCode < lzwMaxCodes := by rwa [emitCode_comp]
  simp only [matchStep, dictHas_of_lookup_none hkey, mismatch, dictCode, hcur, Option.getD_some, if_pos hfree']
  rfl

/-- MISMATCH with the table full (R157). -/
theorem matchStep_of_full {z : Lzw} {k : Byte} {code : Nat} (mcs : Nat) (hcur : z.comp.dict.lookup z.comp.cur = some code)
    (hkey : z.comp.dict.lookup (z.comp.cur ++ [k]) = none) (hfull : 4096 ≤ z.comp.nextCode) :
    matchStep mcs z k =
      onComp (fun c => setCur [k] (dictReset mcs c)) (emitCode (clearCode mcs) (emitCode code z)) := by
  have hfull' : ¬ (emitCode code z).comp.nextCode < lzwMaxCodes := by rwa [emitCode_comp, not_lt]
  simp only [matchStep, dictHas_of_lookup_none hkey, mismatch, dictCode, hcur, Option.getD_some, if_neg hfull']
  rfl

/-- Settles O52: MATCH, MISMATCH with a code left, and MISMATCH with the table full. -/
theorem matchOrMismatch : Obligations.MatchOrMismatch := by
  unfold Obligations.MatchOrMismatch
  intro mcs z k
  refine ⟨matchStep_of_key mcs, fun code hcur hkey => ⟨fun hfree => ?_, fun hfull => ?_⟩⟩
  · have hcomp : (onComp (fun c => setCur [k] (insertEntry k c)) (emitCode code z)).comp =
        setCur [k] (insertEntry k z.comp) := by rw [onComp, emitCode_comp]
    rw [matchStep_of_free mcs hcur hkey hfree, hcomp]
    refine ⟨rfl, rfl, rfl, rfl, ?_, fun seq hseq => ?_, rfl⟩
    · exact (insertEntry_lookup k z.comp _).trans (if_pos rfl)
    · exact (insertEntry_lookup k z.comp seq).trans (if_neg hseq)
  · rw [matchStep_of_full mcs hcur hkey hfull]
    refine ⟨rfl, rfl, ?_⟩
    rw [onComp, emitCode_comp, emitCode_comp]
    rfl

/-! ### FLUSH (R159) -/

theorem flushBits_of_none_pending {z : Lzw} (h : z.pack.bitcnt = 0) : flushBits z = z := if_neg (by omega)

/-- FLUSH's partial byte is BITBUF. -/
theorem flushBits_of_pending {z : Lzw} (h : z.pack.bitcnt ≠ 0) (hbuf : z.pack.bitbuf < 256) :
    flushBits z = setBits 0 0 (putByte (BitVec.ofNat 8 z.pack.bitbuf) z) := by
  have hlow : z.pack.bitbuf &&& 0xFF = z.pack.bitbuf := (and_low_byte _).trans (Nat.mod_eq_of_lt hbuf)
  rw [flushBits, if_pos (Nat.pos_of_ne_zero h), hlow]
  rfl

/-- FLUSH after the partial byte: the short sub-block, if there is one, and the terminator. -/
theorem flush_eq (z : Lzw) :
    flush z =
      { flushBits z with
        pack := { (flushBits z).pack with sb := [] }
        appended := (flushBits z).appended ++
          (if (flushBits z).pack.sb = [] then [] else subBlock (flushBits z).pack.sb) ++ [0x00#8] } := by
  unfold flush
  generalize flushBits z = u
  obtain ⟨comp, ⟨buf, cnt, sb⟩, appended⟩ := u
  cases sb with
  | nil => simp
  | cons b sb => simp

/-- Settles O53: with bits pending or with none, what is left after the partial byte is the sub-block buffer. -/
theorem flushClosesBlock : Obligations.FlushClosesBlock := by
  unfold Obligations.FlushClosesBlock
  intro z hbuf
  rw [flush_eq]
  by_cases hcnt : z.pack.bitcnt = 0
  · rw [flushBits_of_none_pending hcnt, if_pos hcnt]
    exact ⟨rfl, hcnt, rfl, fun hne => absurd hcnt hne, rfl⟩
  · rw [flushBits_of_pending hcnt hbuf, if_neg hcnt]
    exact ⟨rfl, rfl, rfl, fun _ => rfl, putByte_comp _ z⟩

end Sys2Proof.Machine
end

section
/-! The container's own statements (44_container_commands.md): READ_OUTPUT and GET_BLOB (R188, R189). -/

namespace Sys2Proof.Machine

/-! ### The check STATUS.CFG = 1 (60_exceptions.md R201) -/

theorem requireConfigured_of_cfg {s : State} (h : s.status.cfg = true) (k : State → Result) :
    requireConfigured s k = k s := by
  simp [requireConfigured, h]

theorem requireConfigured_of_not_cfg {s : State} (h : s.status.cfg = false) (k : State → Result) :
    requireConfigured s k = .next (s.afterFault .notConfigured) :=
  if_pos h

/-! ### READ_OUTPUT and GET_BLOB (R188, R189) -/

theorem exec_readOutput_of_no_fault {s : State} (hs : s.status.fault = .none) :
    exec .readOutput s = requireConfigured s fun s => complete (.bytes s.outRead) s := by
  rw [exec, execReadOutput, accept_of_none hs]

theorem exec_getBlob_of_no_fault {s : State} (hs : s.status.fault = .none) :
    exec .getBlob s = requireConfigured s fun s => complete (.blob s.outRead .imageGif) s := by
  rw [exec, execGetBlob, accept_of_none hs]

/-- Settles O21: an accepted read checks STATUS.CFG, and past the check it does nothing but answer. -/
theorem readsReturnSnapshot : Obligations.ReadsReturnSnapshot := by
  unfold Obligations.ReadsReturnSnapshot
  refine ⟨by decide, by decide, fun s hs => ?_⟩
  rw [exec_readOutput_of_no_fault hs, exec_getBlob_of_no_fault hs]
  constructor
  · intro hcfg
    exact ⟨requireConfigured_of_cfg hcfg _, requireConfigured_of_cfg hcfg _⟩
  · intro hcfg
    exact ⟨requireConfigured_of_not_cfg hcfg _, requireConfigured_of_not_cfg hcfg _⟩

end Sys2Proof.Machine
end

section
/-! The faults' own statements (60_exceptions.md): which fault a command reports (R201, R203), and the CAPACITY an append raises
(R204). -/

namespace Sys2Proof.Machine

/-! ### The first cause that holds (R203) -/

/-- The scan of `reportedFault` over any list of faults and causes. -/
def firstCause (causes : List (FaultCode × Bool)) : FaultCode :=
  ((causes.find? fun c => c.2).map fun c => c.1).getD .none

@[simp] theorem firstCause_nil : firstCause [] = .none := rfl

@[simp] theorem firstCause_cons (f : FaultCode) (b : Bool) (causes : List (FaultCode × Bool)) :
    firstCause ((f, b) :: causes) = if b = true then f else firstCause causes := by
  cases b <;> rfl

/-- A fault found is in the list, and its cause holds. -/
theorem mem_of_firstCause_eq {causes : List (FaultCode × Bool)} {f : FaultCode} (h : firstCause causes = f)
    (hf : f ≠ .none) : (f, true) ∈ causes := by
  induction causes with
  | nil => exact absurd h.symm hf
  | cons c causes ih =>
    obtain ⟨g, b⟩ := c
    cases b with
    | false => exact List.mem_cons_of_mem _ (ih h)
    | true =>
      cases h
      exact List.mem_cons_self

theorem reportedFault_eq_firstCause (i : Instr) (s : State) : reportedFault i s = firstCause (faultCauses i s) := rfl

/-- The faults a CONFIGURE can report. -/
theorem reportedFault_of_dimensions {i : Instr} {w h : Nat} (hi : dimensions i = some (w, h)) (s : State) :
    reportedFault i s =
      if w = 0 ∨ h = 0 then .badDimensions
      else if 655354 < effectiveDelayOf s.params i then .delayRange
      else if exceeds (w * h) s.params.maxFramePixels = true then .capacity
      else .none := by
  have hconf : isConfigure i = true ∧ i ≠ .addFrame ∧ i ≠ .finish := by
    cases i <;> simp [dimensions, isConfigure] at hi ⊢
  simp [reportedFault_eq_firstCause, faultCauses, hi, hconf]

/-- The faults an ADD_FRAME can report. -/
theorem reportedFault_addFrame (s : State) :
    reportedFault .addFrame s =
      if s.status.cfg = false then .notConfigured
      else if s.status.fin = true then .afterFinish
      else if s.pixLen ≠ s.pixelCount * 4 then .bufferLength
      else if exceeds (s.outLen + s.addFrameBytes.length) s.params.outCapacity = true then .capacity
      else .none := by
  by_cases hlen : s.pixLen = s.width.toNat * s.height.toNat * 4 <;>
    simp [reportedFault_eq_firstCause, faultCauses, isConfigure, dimensions, effectiveDelayOf, State.appendedBy,
      State.pixelCount, hlen]

/-- The faults a FINISH can report. -/
theorem reportedFault_finish (s : State) :
    reportedFault .finish s =
      if s.status.cfg = false then .notConfigured
      else if s.status.fin = true then .afterFinish
      else if exceeds (s.outLen + s.finishBytes.length) s.params.outCapacity = true then .capacity
      else .none := by
  simp [reportedFault_eq_firstCause, faultCauses, isConfigure, dimensions, effectiveDelayOf, State.appendedBy]

/-- The one fault a READ_OUTPUT or GET_BLOB can report. -/
theorem reportedFault_of_read {i : Instr} (hi : i = .readOutput ∨ i = .getBlob) (s : State) :
    reportedFault i s = if s.status.cfg = false then .notConfigured else .none := by
  rcases hi with rfl | rfl <;>
    simp [reportedFault_eq_firstCause, faultCauses, isConfigure, dimensions, effectiveDelayOf]

/-- CAPACITY has two causes: a frame above MAX_FRAME_PIXELS and an append past OUT_CAPACITY (R201). With neither bounded it is
not reported. -/
theorem reportedFault_ne_capacity_of_unbounded (i : Instr) {s : State} (hout : s.params.outCapacity = none)
    (hpix : s.params.maxFramePixels = none) : reportedFault i s ≠ .capacity := by
  intro h
  have hcause : (.capacity, true) ∈ faultCauses i s := mem_of_firstCause_eq h (by decide)
  simp [faultCauses, hout, hpix, exceeds] at hcause

/-! ### The fault a result leaves -/

/-- The fault of the next state, when the result is one. -/
def LeavesFault (f : FaultCode) (r : Result) : Prop := ∀ t, r = .next t → t.status.fault = f

theorem leavesFault_next {f : FaultCode} {s : State} (h : s.status.fault = f) : LeavesFault f (.next s) := by
  rintro _ ⟨⟩
  exact h

theorem leavesFault_refused (f : FaultCode) (r : Refusal) : LeavesFault f (.refused r) := nofun

theorem leavesFault_raiseFault (f : FaultCode) (s : State) : LeavesFault f (raiseFault f s) := leavesFault_next rfl

/-- A check that raises f, and then the rest: the shape of every check before an effect. -/
theorem LeavesFault.check {c : Prop} [Decidable c] {f g : FaultCode} {s : State} {r : Result} (h : LeavesFault g r) :
    LeavesFault (if c then f else g) (if c then raiseFault f s else r) := by
  split
  · exact leavesFault_raiseFault f s
  · exact h

/-- Bytes fit exactly if OUT_LEN with them does not exceed OUT_CAPACITY (20_memory.md R53). -/
theorem State.fits_eq_not_exceeds (s : State) (n : Nat) : s.fits n = !exceeds (s.outLen + n) s.params.outCapacity := by
  rw [Bool.eq_iff_iff, Bool.not_eq_true', State.fits_iff, exceeds_eq_false_iff]

/-- An append, and then the rest, which leaves no fault. -/
theorem LeavesFault.append {bs : List Byte} {s : State} {k : State → Result} (h : LeavesFault .none (k (s.appendOut bs))) :
    LeavesFault (if exceeds (s.outLen + bs.length) s.params.outCapacity = true then .capacity else .none)
      (appendThen bs s k) := by
  have hfits := s.fits_eq_not_exceeds bs.length
  split
  · next hfull =>
    rw [appendThen_full k (by rw [hfits, hfull]; rfl)]
    exact fun t => fault_of_raiseAppendCapacity
  · next hroom =>
    rw [appendThen_fits k (by rw [hfits, Bool.eq_false_of_not_eq_true hroom]; rfl)]
    exact h

/-! ### Appends past their checks (44_container_commands.md R186, R187) -/

/-- ADD_FRAME past its checks is one append of its bytes, on a frame of no pixels too, and what follows raises no fault. -/
theorem exists_addFrame_append {s : State} (hs : s.status.fault = .none) :
    ∃ k, (headerThen s fun s => frameHeadThen (quantizeFrame s) fun s => lzwThen s fun s => complete .empty s.discardWork) =
        appendThen s.addFrameBytes s k ∧ LeavesFault .none (k (s.appendOut s.addFrameBytes)) := by
  by_cases hidx : (quantize s.pixelCount (pixels s.pixBytes) s.work).idx = []
  · exact ⟨_, addFrame_append_empty s hidx, leavesFault_refused _ _⟩
  · exact ⟨_, addFrame_append s hidx, leavesFault_next hs⟩

theorem requireOpen_of_not_fin {s : State} (h : s.status.fin = false) (k : State → Result) : requireOpen s k = k s := by
  simp [requireOpen, h]

/-- An ADD_FRAME or FINISH that passes its checks is one append of its bytes. -/
theorem exists_exec_eq_appendThen {i : Instr} {s : State} (hs : s.status.fault = .none) (hcfg : s.status.cfg = true)
    (hfin : s.status.fin = false) (hi : i = .addFrame ∧ s.pixLen = s.pixelCount * 4 ∨ i = .finish) :
    ∃ k, exec i s = appendThen (s.appendedBy i) s k := by
  rcases hi with ⟨rfl, hlen⟩ | rfl
  · obtain ⟨k, hk, -⟩ := exists_addFrame_append hs
    rw [exec, execAddFrame, accept_of_none hs, requireConfigured_of_cfg hcfg, requireOpen_of_not_fin hfin,
      if_neg (not_not_intro hlen), hk]
    exact ⟨k, rfl⟩
  · rw [exec, execFinish, accept_of_none hs, requireConfigured_of_cfg hcfg, requireOpen_of_not_fin hfin, finish_append]
    exact ⟨_, rfl⟩

/-! ### The fault each command leaves (R201, R203) -/

/-- A field is zero as a number exactly if it is the zero word. -/
theorem toNat_eq_zero_iff {n : Nat} (x : BitVec n) : x.toNat = 0 ↔ x = 0#n := BitVec.toNat_inj (y := 0#n)

/-- The effective delay that R201 speaks of is the one CONFIGURE with DP = 1 computes. -/
theorem effectiveDelayOf_configureDelay (p : Config.Params) (w h : BitVec 16) (d : BitVec 23) :
    effectiveDelayOf p (.configureDelay w h d) = effectiveDelayGiven p d := by
  simp only [effectiveDelayOf, effectiveDelayGiven, toNat_eq_zero_iff, defaultDelayMs]

/-- CONFIGURE's checks, for operands and an effective delay given as numbers. -/
theorem leavesFault_configureWith {s : State} (hs : s.status.fault = .none) (w h : BitVec 16) (eff : Nat) :
    LeavesFault
      (if w.toNat = 0 ∨ h.toNat = 0 then .badDimensions
       else if 655354 < eff then .delayRange
       else if exceeds (w.toNat * h.toNat) s.params.maxFramePixels = true then .capacity
       else .none)
      (configureWith w h eff s) := by
  simp only [toNat_eq_zero_iff, ← delay_overflow_iff]
  exact .check (.check (.check (leavesFault_next hs)))

/-- The fault a command leaves on a block that is not FAULTED is the one R203 says. -/
theorem leavesFault_exec (i : Instr) {s : State} (hs : s.status.fault = .none) :
    LeavesFault (reportedFault i s) (exec i s) := by
  cases i with
  | configureDefault w h =>
    rw [reportedFault_of_dimensions rfl, exec, execConfigureDefault, accept_of_none hs]
    exact leavesFault_configureWith hs w h 100
  | configureDelay w h d =>
    rw [reportedFault_of_dimensions rfl, effectiveDelayOf_configureDelay, exec, execConfigureDelay, accept_of_none hs]
    exact leavesFault_configureWith hs w h (effectiveDelayGiven s.params d)
  | addFrame =>
    obtain ⟨k, hk, hleaves⟩ := exists_addFrame_append hs
    rw [reportedFault_addFrame, exec, execAddFrame, accept_of_none hs, requireConfigured, requireOpen, hk]
    exact .check (.check (.check (.append hleaves)))
  | finish =>
    rw [reportedFault_finish, exec, execFinish, accept_of_none hs, requireConfigured, requireOpen, finish_append]
    exact .check (.check (.append (leavesFault_next hs)))
  | readOutput =>
    rw [reportedFault_of_read (.inl rfl), exec_readOutput_of_no_fault hs]
    exact .check (leavesFault_next hs)
  | getBlob =>
    rw [reportedFault_of_read (.inr rfl), exec_getBlob_of_no_fault hs]
    exact .check (leavesFault_next hs)

/-- Settles O22: every check raises its own fault before the rest of the command runs, in the order of R203. -/
theorem reportedFaultFollowsPriority : Obligations.ReportedFaultFollowsPriority := by
  unfold Obligations.ReportedFaultFollowsPriority
  intro cmd s t h
  constructor
  · intro hs
    cases hdec : decode cmd with
    | none =>
      cases (execute_of_illegal hs hdec).symm.trans h
      rfl
    | some i =>
      rw [execute_of_legal hdec] at h
      exact leavesFault_exec i hs t h
  · intro hs
    exact (Host.Outcome.next.inj ((execute_eq_next_of_fault cmd hs).symm.trans h)).symm

/-- Settles O20: past the checks the command is one append, which does not fit; and with nothing bounded CAPACITY has no cause. -/
theorem appendCapacityFault : Obligations.AppendCapacityFault := by
  unfold Obligations.AppendCapacityFault
  constructor
  · intro s i c hs hcfg hfin hi hc hover
    obtain ⟨k, hk⟩ := exists_exec_eq_appendThen hs hcfg hfin hi
    have hfull : s.fits (s.appendedBy i).length = false := by simp [State.fits, hc, hover]
    obtain ⟨t, ht, hfault, hcfg', hfin', hw, hh, hd, -, -, -, hresp, -⟩ := raiseAppendCapacity_spec s
    exact ⟨t, by rw [hk, appendThen_full k hfull, ht], hfault, hresp, hw, hh, hd, hcfg', hfin'⟩
  · intro s t i hout hpix hs h
    by_cases hnone : s.status.fault = .none
    · rw [leavesFault_exec i hnone t h]
      exact reportedFault_ne_capacity_of_unbounded i hout hpix
    · cases (exec_eq_next_of_fault i hnone).symm.trans h
      exact hs

end Sys2Proof.Machine
end

section
/-! The command word's own statements (30_encoding.md): the decoder and the encoder are each other's inverse (R71 to R76). -/

namespace Sys2Proof

/-- A word packed with the opcode of CONFIGURE decodes as one, its fields read back as they were put in. -/
theorem decode_packWord_configure (dp : BitVec 1) (d : BitVec 23) (h w : BitVec 16) :
    decode (packWord dp d h w 0x01#8) =
      if dp.getLsbD 0 then some (.configureDelay w h d)
      else if d = 0#23 then some (.configureDefault w h)
      else none := by
  simp only [decode, decodeConfigure, fieldOpc_packWord, fieldDP_packWord, fieldD_packWord, fieldH_packWord,
    fieldW_packWord, if_true]

/-- Settles O1: the two forms of CONFIGURE differ in DP and carry their operands in the fields; the other words are constants. -/
theorem decodeEncodeRoundTrip : Obligations.DecodeEncodeRoundTrip := by
  unfold Obligations.DecodeEncodeRoundTrip
  intro i
  cases i with
  | configureDefault w h => exact decode_packWord_configure 0#1 0#23 h w
  | configureDelay w h d => exact decode_packWord_configure 1#1 d h w
  | addFrame => decide
  | finish => decide
  | readOutput => decide
  | getBlob => decide

/-- Settles O2: each branch of the decoder fixes every field of the word. -/
theorem decodedWordIsItsEncoding : Obligations.DecodedWordIsItsEncoding := by
  unfold Obligations.DecodedWordIsItsEncoding
  exact fun _ _ => encode_of_decode

/-- Settles O3: the branches of the decoder against the checks, opcode by opcode. -/
theorem legalWordsDecode : Obligations.LegalWordsDecode := by
  unfold Obligations.LegalWordsDecode
  exact decode_isSome

/-- Settles O5: ten closed words. -/
theorem sampleWordsDecode : Obligations.SampleWordsDecode := by
  unfold Obligations.SampleWordsDecode
  decide

end Sys2Proof
end

section
/-! The compressor's statements over a whole index buffer (43_lzw_compressor.md): its legal states (R151, R155 to R157), the code
stream (R162), and the dictionary keyed by pairs (R151). -/

namespace Sys2Proof.Machine

/-! ### Every index keeps the compressor legal (R155 to R157) -/

/-- A sequence DICT does not have is looked up in vain. -/
theorem lookup_of_not_dictHas {d : Dict} {seq : List Byte} (h : ¬ dictHas d seq = true) : d.lookup seq = none :=
  Option.not_isSome_iff_eq_none.mp h

theorem CompressorLegal.matchStep {mcs : Nat} (h2 : 2 ≤ mcs) (h8 : mcs ≤ 8) {k : Byte} (hk : k.toNat < 2 ^ mcs) {z : Lzw}
    (hz : CompressorLegal mcs z.comp) : CompressorLegal mcs (Machine.matchStep mcs z k).comp := by
  by_cases hkey : dictHas z.comp.dict (z.comp.cur ++ [k]) = true
  · rw [matchStep_of_key mcs hkey]
    exact hz.extend hkey
  · have hnone := lookup_of_not_dictHas hkey
    rcases Nat.lt_or_ge z.comp.nextCode 4096 with hfree | hfull
    · rw [matchStep_of_free mcs hz.cur_lookup hnone hfree, onComp, emitCode_comp]
      exact hz.insert hk hfree
    · rw [matchStep_of_full mcs hz.cur_lookup hnone hfull, onComp, emitCode_comp, emitCode_comp]
      exact .reset h2 h8 z.comp hk

/-- Settles O59: a fresh dictionary is legal, and so is the state after each of the three cases of an index. -/
theorem compressorStepKeepsLegal : Obligations.CompressorStepKeepsLegal := by
  unfold Obligations.CompressorStepKeepsLegal
  exact fun mcs h2 h8 k hk => ⟨.reset h2 h8 _ hk, fun z hz => hz.matchStep h2 h8 hk⟩

/-! ### The code stream (R162) -/

theorem freshCompressor_legal {mcs : Nat} (h2 : 2 ≤ mcs) (h8 : mcs ≤ 8) {first : Byte} (hfirst : first.toNat < 2 ^ mcs) :
    CompressorLegal mcs (freshCompressor mcs first) :=
  .reset h2 h8 _ hfirst

/-- The code stream at an index that extends the match (R155). -/
theorem codesFrom_of_key {c : Compressor} {k : Byte} {code : Nat} (mcs : Nat) (ks : List Byte)
    (hkey : c.dict.lookup (c.cur ++ [k]) = some code) :
    codesFrom mcs c (k :: ks) = codesFrom mcs (setCur (c.cur ++ [k]) c) ks := by
  rw [codesFrom.eq_2, if_pos (by simp [dictHas, hkey])]

/-- The code stream at an index that does not extend the match, with a code left to assign (R156). -/
theorem codesFrom_of_free {c : Compressor} {k : Byte} (mcs : Nat) (ks : List Byte)
    (hkey : c.dict.lookup (c.cur ++ [k]) = none) (hfree : c.nextCode < 4096) :
    codesFrom mcs c (k :: ks) = (dictCode c.dict c.cur, c.codeSize) :: codesFrom mcs (setCur [k] (insertEntry k c)) ks := by
  rw [codesFrom.eq_2, if_neg (by simp [dictHas, hkey]), if_pos (show c.nextCode < lzwMaxCodes from hfree)]

/-- The code stream at an index that does not extend the match, with the table full (R157). -/
theorem codesFrom_of_full {c : Compressor} {k : Byte} (mcs : Nat) (ks : List Byte)
    (hkey : c.dict.lookup (c.cur ++ [k]) = none) (hfull : ¬ c.nextCode < 4096) :
    codesFrom mcs c (k :: ks) =
      (dictCode c.dict c.cur, c.codeSize) :: (clearCode mcs, c.codeSize) ::
        codesFrom mcs (setCur [k] (dictReset mcs c)) ks := by
  rw [codesFrom.eq_2, if_neg (by simp [dictHas, hkey]), if_neg (show ¬ c.nextCode < lzwMaxCodes from hfull)]

/-- A fresh dictionary holds no sequence of two indices or more. -/
theorem literalDict_lookup_append {mcs : Nat} {seq : List Byte} (hseq : seq ≠ []) (k : Byte) :
    (literalDict mcs).lookup (seq ++ [k]) = none := by
  refine Option.eq_none_iff_forall_ne_some.mpr fun code hcode => ?_
  have hlen := congrArg List.length (literalDict_key hcode).1
  simp [hseq] at hlen

/-- A frame of two indices or more has 4 codes or more: its second index never extends the first. -/
theorem lzwCodes_length_of_two {mcs : Nat} (h2 : 2 ≤ mcs) (h8 : mcs ≤ 8) {first : Byte} {rest : List Byte}
    (hidx : ∀ x ∈ first :: rest, x.toNat < 2 ^ mcs) (hrest : rest ≠ []) : 4 ≤ (lzwCodes mcs first rest).length := by
  obtain ⟨k, ks, rfl⟩ := List.exists_cons_of_ne_nil hrest
  have hfresh := freshCompressor_legal h2 h8 (hidx first (by simp))
  have hkey : (freshCompressor mcs first).dict.lookup ([first] ++ [k]) = none :=
    literalDict_lookup_append (List.cons_ne_nil first []) k
  have hfree : (freshCompressor mcs first).nextCode < 4096 := by
    have hclear := (clear_bounds h2 h8).2
    show 2 ^ mcs + 1 + 1 < 4096
    omega
  obtain ⟨-, -, hlen, -⟩ := codesFrom_spec h2 h8 ks _ (hfresh.insert (hidx k (by simp)) hfree)
    fun x hx => hidx x (by simp [hx])
  rw [lzwCodes, codesFrom_of_free mcs ks hkey hfree]
  simp only [List.length_cons]
  omega

/-- Settles O57: the clear code, and then the codes from a fresh compressor on, which is legal. -/
theorem codeStreamInvariants : Obligations.CodeStreamInvariants := by
  unfold Obligations.CodeStreamInvariants
  intro mcs first rest h2 h8 hidx
  have hfresh := freshCompressor_legal h2 h8 (hidx first (by simp))
  have hrest : ∀ x ∈ rest, x.toNat < 2 ^ mcs := fun x hx => hidx x (by simp [hx])
  obtain ⟨hfit, ⟨earlier, code, width, hlast, hplain⟩, hge, hle⟩ := codesFrom_spec h2 h8 rest _ hfresh hrest
  refine ⟨rfl, ⟨(clearCode mcs, mcs + 1) :: earlier, code, width, ?_, hplain⟩, ?_, ?_, ?_, ?_, ?_⟩
  · rw [lzwCodes, hlast]
    rfl
  · intro c hc
    rcases List.mem_cons.mp hc with rfl | hc
    · exact hfresh.fits (show 2 ^ mcs < 2 ^ mcs + 1 + 1 by omega)
    · exact hfit c hc
  · intro c hc hlit
    rcases List.mem_cons.mp hc with rfl | hc
    · exact absurd hlit (lt_irrefl _)
    · exact codesFrom_literal h2 h8 rest _ hfresh hrest c hc hlit
  · simp only [lzwCodes, List.length_cons]
    omega
  · exact lzwCodes_length_of_two h2 h8 hidx
  · simp only [lzwCodes, List.length_cons]
    omega

/-! ### The dictionary keyed by pairs (R151) -/

/-- The compressor keyed by pairs is at the same point as the one keyed by sequences: the pair (code of a key, next index) is
assigned exactly what the key with that index is. -/
structure PairSimulates (mcs : Nat) (c : Compressor) (p : PairCompressor) : Prop where
  legal : CompressorLegal mcs c
  size : p.codeSize = c.codeSize
  next : p.nextCode = c.nextCode
  cur : c.dict.lookup c.cur = some p.curCode
  entries : ∀ (seq : List Byte) (code : Nat) (k : Byte), c.dict.lookup seq = some code →
    p.dict.lookup (code, k) = c.dict.lookup (seq ++ [k])
  unassigned : ∀ (code : Nat) (k : Byte), c.nextCode ≤ code → p.dict.lookup (code, k) = none

theorem PairSimulates.curCode {mcs : Nat} {c : Compressor} {p : PairCompressor} (h : PairSimulates mcs c p) :
    dictCode c.dict c.cur = p.curCode := by
  rw [dictCode, h.cur]
  rfl

/-- A key is not empty. -/
theorem CompressorLegal.key_ne {mcs : Nat} {c : Compressor} (h : CompressorLegal mcs c) {seq : List Byte} {code : Nat}
    (hseq : c.dict.lookup seq = some code) : seq ≠ [] := by
  rintro rfl
  cases h.key_ne_nil.symm.trans hseq

/-- What is no key is extended by no key. -/
theorem CompressorLegal.lookup_append_of_no_key {mcs : Nat} {c : Compressor} (h : CompressorLegal mcs c) {seq : List Byte}
    (hne : seq ≠ []) (hseq : c.dict.lookup seq = none) (k : Byte) : c.dict.lookup (seq ++ [k]) = none := by
  by_contra hsome
  have hkey := h.key_prefix seq k hne (Option.isSome_iff_ne_none.mpr hsome)
  rw [hseq] at hkey
  cases hkey

/-- The two fresh dictionaries agree: no key has a second index. -/
theorem PairSimulates.reset {mcs : Nat} (h2 : 2 ≤ mcs) (h8 : mcs ≤ 8) (c : Compressor) {k : Byte} (hk : k.toNat < 2 ^ mcs) :
    PairSimulates mcs (setCur [k] (dictReset mcs c)) (freshPair mcs k) := by
  have hlegal : CompressorLegal mcs (setCur [k] (dictReset mcs c)) := .reset h2 h8 c hk
  exact
    { legal := hlegal
      size := rfl
      next := rfl
      cur := hlegal.literal k hk
      entries := fun _ _ j hseq => (literalDict_lookup_append (hlegal.key_ne hseq) j).symm
      unassigned := fun _ _ _ => rfl }

/-- MATCH: the pair's code is the code of the extended match. -/
theorem PairSimulates.extend {mcs : Nat} {c : Compressor} {p : PairCompressor} (h : PairSimulates mcs c p) {k : Byte}
    {code : Nat} (hkey : c.dict.lookup (c.cur ++ [k]) = some code) :
    PairSimulates mcs (setCur (c.cur ++ [k]) c) { p with curCode := code } where
  legal := h.legal.extend (by rw [dictHas, hkey]; rfl)
  size := h.size
  next := h.next
  cur := hkey
  entries := h.entries
  unassigned := h.unassigned

/-- The pair compressor after an insertion, with the match at k. -/
def insertPair (k : Byte) (p : PairCompressor) : PairCompressor :=
  { dict := ((p.curCode, k), p.nextCode) :: p.dict
    codeSize := widen (p.nextCode + 1) p.codeSize
    nextCode := p.nextCode + 1
    curCode := k.toNat }

theorem insertPair_lookup (k : Byte) (p : PairCompressor) (pair : Nat × Byte) :
    (insertPair k p).dict.lookup pair = if pair = (p.curCode, k) then some p.nextCode else p.dict.lookup pair := by
  rw [insertPair, List.lookup_cons]
  split
  · next heq => rw [if_pos (beq_iff_eq.mp heq)]
  · next hne => rw [if_neg (beq_eq_false_iff_ne.mp hne)]

/-- MISMATCH with a code left: both dictionaries get the same code for the extended match, and no key extends the new one yet. -/
theorem PairSimulates.insert {mcs : Nat} {c : Compressor} {p : PairCompressor} (h : PairSimulates mcs c p) {k : Byte}
    (hk : k.toNat < 2 ^ mcs) (hfree : c.nextCode < 4096) (hnew : c.dict.lookup (c.cur ++ [k]) = none) :
    PairSimulates mcs (setCur [k] (insertEntry k c)) (insertPair k p) := by
  have hlegal := h.legal.insert hk hfree
  have hcurlt : p.curCode < c.nextCode := h.legal.code_lt _ _ h.cur
  refine
    { legal := hlegal
      size := by rw [insertPair, h.size, h.next]; rfl
      next := congrArg (· + 1) h.next
      cur := hlegal.literal k hk
      entries := fun seq code j hseq => ?_
      unassigned := fun code j hcode => ?_ }
  · change (insertEntry k c).dict.lookup seq = some code at hseq
    change _ = (insertEntry k c).dict.lookup (seq ++ [j])
    rw [insertEntry_lookup] at hseq
    rw [insertEntry_lookup, insertPair_lookup, h.next]
    split at hseq
    · next hnewkey =>
      cases hseq
      have hpair : (c.nextCode, j) ≠ (p.curCode, k) := fun e => hcurlt.ne' (Prod.mk.inj e).1
      have hlong : seq ++ [j] ≠ c.cur ++ [k] := fun e => h.legal.cur_ne_nil (by simp [hnewkey] at e)
      rw [if_neg hpair, if_neg hlong, hnewkey, h.legal.lookup_append_of_no_key (by simp) hnew]
      exact h.unassigned _ j (le_refl _)
    · have hiff : (code, j) = (p.curCode, k) ↔ seq ++ [j] = c.cur ++ [k] := by
        constructor
        · intro e
          obtain ⟨rfl, rfl⟩ := Prod.mk.inj e
          rw [h.legal.code_injective _ _ _ hseq h.cur]
        · intro e
          obtain ⟨rfl, hj⟩ := List.append_inj' e rfl
          cases hj
          cases hseq.symm.trans h.cur
          rfl
      simp only [hiff, h.entries seq code j hseq]
  · change c.nextCode + 1 ≤ code at hcode
    have hpair : (code, j) ≠ (p.curCode, k) := fun e => by
      have := (Prod.mk.inj e).1
      omega
    rw [insertPair_lookup, if_neg hpair]
    exact h.unassigned code j (by omega)

/-- The two compressors emit the same codes from there on. -/
theorem PairSimulates.codes {mcs : Nat} (h2 : 2 ≤ mcs) (h8 : mcs ≤ 8) {ks : List Byte} {c : Compressor} {p : PairCompressor}
    (h : PairSimulates mcs c p) (hks : ∀ x ∈ ks, x.toNat < 2 ^ mcs) : pairCodesFrom mcs p ks = codesFrom mcs c ks := by
  induction ks generalizing c p with
  | nil => rw [pairCodesFrom, codesFrom, h.curCode, h.size]
  | cons k ks ih =>
    have hk : k.toNat < 2 ^ mcs := hks k (by simp)
    have hrest : ∀ x ∈ ks, x.toNat < 2 ^ mcs := fun x hx => hks x (by simp [hx])
    have hpair := h.entries _ _ k h.cur
    cases hkey : c.dict.lookup (c.cur ++ [k]) with
    | some code =>
      rw [pairCodesFrom, hpair, hkey, codesFrom_of_key mcs ks hkey]
      exact ih (h.extend hkey) hrest
    | none =>
      rw [pairCodesFrom, hpair, hkey]
      dsimp only
      split
      · next hfree =>
        have hfree' : c.nextCode < 4096 := h.next ▸ hfree
        rw [codesFrom_of_free mcs ks hkey hfree', ← ih (h.insert hk hfree' hkey) hrest, h.curCode, h.size]
        rw [insertPair, h.size]
      · next hfull =>
        rw [codesFrom_of_full mcs ks hkey (h.next ▸ hfull), ih (.reset h2 h8 c hk) hrest, h.curCode, h.size]

/-- Settles O56: the two fresh compressors are at the same point. -/
theorem pairDictionarySameCodes : Obligations.PairDictionarySameCodes := by
  unfold Obligations.PairDictionarySameCodes
  intro mcs first rest h2 h8 hidx
  have hfresh : PairSimulates mcs (freshCompressor mcs first) (freshPair mcs first) :=
    .reset h2 h8 _ (hidx first (by simp))
  rw [lzwPairCodes, lzwCodes, hfresh.codes h2 h8 fun x hx => hidx x (by simp [hx])]

end Sys2Proof.Machine
end

section
/-! The bytes of the LZW block (43_lzw_compressor.md R153, R154, R159 to R161): the packer's data bytes in their sub-blocks. -/

namespace Sys2Proof.Machine

/-! ### The data bytes put out so far (R154) -/

/-- PUT_BYTE has been given these data bytes: the full sub-blocks are in OUT, the others in the sub-block buffer. -/
structure Written (mcs : Nat) (data : List Byte) (z : Lzw) : Prop where
  blocks : z.appended = BitVec.ofNat 8 mcs :: fullBlocks data
  partialBlock : z.pack.sb = data.drop (255 * (data.length / 255))

theorem Packed.written {mcs : Nat} {bs : List Bool} {data : List Byte} {z : Lzw} (h : Packed mcs bs z data) :
    Written mcs data z :=
  ⟨h.blocks, h.partialBlock⟩

theorem written_start (mcs : Nat) : Written mcs [] (packerStart mcs) := (packed_start mcs).written

theorem packerStart_bitcnt_lt (mcs : Nat) : (packerStart mcs).pack.bitcnt < 8 := show 0 < 8 by decide

theorem Written.putByte {mcs : Nat} {data : List Byte} {z : Lzw} (h : Written mcs data z) (b : Byte) :
    Written mcs (data ++ [b]) (Machine.putByte b z) :=
  let ⟨hblocks, hpartial⟩ := putByte_data b h.blocks h.partialBlock
  ⟨hblocks, hpartial⟩

/-- One round of EMIT_CODE's loop puts out one byte. -/
theorem Written.emitLowByte {mcs : Nat} {data : List Byte} {z : Lzw} (h : Written mcs data z) :
    ∃ b, Written mcs (data ++ [b]) (Machine.emitLowByte z) :=
  let ⟨hblocks, hpartial⟩ := h.putByte (BitVec.ofNat 8 (z.pack.bitbuf &&& 0xFF))
  ⟨_, hblocks, hpartial⟩

/-- n rounds of EMIT_CODE's loop put out n bytes, eight pending bits each. -/
theorem Written.emitBytes {mcs : Nat} {data : List Byte} {z : Lzw} (h : Written mcs data z) (n : Nat) :
    ∃ data', Written mcs data' (Machine.emitBytes n z) ∧ data'.length = data.length + n ∧
      (Machine.emitBytes n z).pack.bitcnt = z.pack.bitcnt - 8 * n := by
  induction n generalizing data z with
  | zero => exact ⟨data, h, rfl, rfl⟩
  | succ n ih =>
    obtain ⟨b, hb⟩ := h.emitLowByte
    obtain ⟨data', hdata, hlen, hcnt⟩ := ih hb
    refine ⟨data', hdata, ?_, ?_⟩
    · rw [hlen, List.length_append, List.length_singleton, Nat.add_assoc, Nat.add_comm 1]
    · rw [Machine.emitBytes, hcnt, (emitLowByte_pack z).1]
      omega

/-- EMIT_CODE loses no bit: those not yet in data bytes are pending, and they are fewer than eight. -/
theorem Written.emitAt {mcs : Nat} {data : List Byte} {z : Lzw} (h : Written mcs data z) (c : Nat × Nat) :
    ∃ data', Written mcs data' (Machine.emitAt z c) ∧ (Machine.emitAt z c).pack.bitcnt < 8 ∧
      8 * data'.length + (Machine.emitAt z c).pack.bitcnt = 8 * data.length + z.pack.bitcnt + c.2 := by
  have hadd : Written mcs data
      { z with
        pack := { z.pack with bitbuf := z.pack.bitbuf ||| (c.1 <<< z.pack.bitcnt), bitcnt := z.pack.bitcnt + c.2 } } :=
    ⟨h.blocks, h.partialBlock⟩
  obtain ⟨data', hdata, hlen, hcnt⟩ := hadd.emitBytes ((z.pack.bitcnt + c.2) / 8)
  refine ⟨data', hdata, ?_, ?_⟩ <;> rw [Machine.emitAt, hcnt]
  · dsimp only
    omega
  · rw [hlen]
    dsimp only
    omega

/-- The number of bits of a code stream. -/
def totalWidth (codes : List (Nat × Nat)) : Nat := (codes.map Prod.snd).sum

theorem Written.foldl_emitAt {mcs : Nat} (codes : List (Nat × Nat)) {data : List Byte} {z : Lzw} (h : Written mcs data z)
    (hz : z.pack.bitcnt < 8) :
    ∃ data', Written mcs data' (codes.foldl Machine.emitAt z) ∧ (codes.foldl Machine.emitAt z).pack.bitcnt < 8 ∧
      8 * data'.length + (codes.foldl Machine.emitAt z).pack.bitcnt =
        8 * data.length + z.pack.bitcnt + totalWidth codes := by
  induction codes generalizing data z with
  | nil => exact ⟨data, h, hz, rfl⟩
  | cons c codes ih =>
    obtain ⟨data', hdata, hcnt, hbits⟩ := h.emitAt c
    obtain ⟨data'', hdata', hcnt', hbits'⟩ := ih hdata hcnt
    refine ⟨data'', hdata', hcnt', hbits'.trans ?_⟩
    rw [hbits, totalWidth, totalWidth, List.map_cons, List.sum_cons, Nat.add_assoc]

/-! ### FLUSH (R159) -/

/-- The data bytes of a frame once FLUSH has put out the partial byte of z. -/
def flushedData (data : List Byte) (z : Lzw) : List Byte :=
  if z.pack.bitcnt = 0 then data else data ++ [BitVec.ofNat 8 (z.pack.bitbuf &&& 0xFF)]

theorem Written.flushBits {mcs : Nat} {data : List Byte} {z : Lzw} (h : Written mcs data z) :
    Written mcs (flushedData data z) (Machine.flushBits z) := by
  unfold flushedData
  split
  · next hcnt => rwa [flushBits_of_none_pending hcnt]
  · next hcnt =>
    obtain ⟨hblocks, hpartial⟩ := h.putByte (BitVec.ofNat 8 (z.pack.bitbuf &&& 0xFF))
    rw [Machine.flushBits, if_pos (Nat.pos_of_ne_zero hcnt)]
    exact ⟨hblocks, hpartial⟩

/-- The sub-blocks of data bytes: the full ones, and what is left over. -/
theorem subBlocks_eq (data : List Byte) :
    subBlocks data =
      fullBlocks data ++
        (if data.drop (255 * (data.length / 255)) = [] then [] else subBlock (data.drop (255 * (data.length / 255)))) := by
  unfold subBlocks fullBlocks
  split
  · next hnil =>
    have hle : data.length ≤ 255 * (data.length / 255) := List.drop_eq_nil_iff.mp hnil
    have hcount : ceilDiv data.length 255 = data.length / 255 := by
      unfold ceilDiv
      omega
    rw [hcount, List.append_nil]
  · next hne =>
    have hlt : 255 * (data.length / 255) < data.length := by
      by_contra hle
      exact hne (List.drop_eq_nil_of_le (by omega))
    have hcount : ceilDiv data.length 255 = data.length / 255 + 1 := by
      unfold ceilDiv
      omega
    have hshort : (data.drop (255 * (data.length / 255))).length ≤ 255 := by
      rw [List.length_drop]
      omega
    rw [hcount, List.range_succ, List.flatMap_append, List.flatMap_singleton, List.take_of_length_le hshort]

/-- FLUSH writes the sub-blocks of all data bytes, and the terminator. -/
theorem Written.flush {mcs : Nat} {data : List Byte} {z : Lzw} (h : Written mcs data z) :
    (Machine.flush z).appended = BitVec.ofNat 8 mcs :: (subBlocks (flushedData data z) ++ [0x00#8]) := by
  obtain ⟨hblocks, hpartial⟩ := h.flushBits
  rw [flush_eq]
  dsimp only
  rw [hblocks, hpartial, subBlocks_eq]
  rfl

/-! ### The LZW block (R160, R161) -/

theorem lzwBlock_cons {mcs : Nat} (h2 : 2 ≤ mcs) (first : Byte) (rest : List Byte) :
    lzwBlock mcs (first :: rest) = (flush ((lzwCodes mcs first rest).foldl emitAt (packerStart mcs))).appended :=
  lzwCompress_appended h2 first rest Work.empty.comp

/-- The LZW block is mcs, the sub-blocks of as many data bytes as hold the code stream's bits, and the terminator. -/
theorem lzwBlock_subBlocks {mcs : Nat} (h2 : 2 ≤ mcs) (first : Byte) (rest : List Byte) :
    ∃ data, lzwBlock mcs (first :: rest) = BitVec.ofNat 8 mcs :: (subBlocks data ++ [0x00#8]) ∧
      totalWidth (lzwCodes mcs first rest) ≤ 8 * data.length := by
  obtain ⟨data, hdata, hcnt, hbits⟩ := (written_start mcs).foldl_emitAt (lzwCodes mcs first rest) (packerStart_bitcnt_lt mcs)
  refine ⟨_, (lzwBlock_cons h2 first rest).trans hdata.flush, ?_⟩
  change 8 * data.length + _ = 0 + 0 + _ at hbits
  unfold flushedData
  split
  · omega
  · rw [List.length_append, List.length_singleton]
    omega

/-- Sub-block i of data bytes cut into 255s. -/
def dataChunk (data : List Byte) (i : Nat) : List Byte := (data.drop (255 * i)).take 255

theorem dataChunk_length (data : List Byte) (i : Nat) : (dataChunk data i).length = min 255 (data.length - 255 * i) := by
  simp [dataChunk]

/-- Sub-blocks of at least one data byte frame an LZW block: only the last can be short. -/
theorem isLzwBlock_of_data (mcs : Nat) {data : List Byte} (hdata : data ≠ []) :
    IsLzwBlock mcs (BitVec.ofNat 8 mcs :: (subBlocks data ++ [0x00#8])) := by
  have hpos : 0 < data.length := List.length_pos_iff.mpr hdata
  obtain ⟨n, hn⟩ : ∃ n, ceilDiv data.length 255 = n + 1 := Nat.exists_eq_add_one.mpr (by unfold ceilDiv; omega)
  have hlast : 255 * n < data.length := by
    unfold ceilDiv at hn
    omega
  refine ⟨(List.range (n + 1)).map (dataChunk data), by simp, ?_, ?_, ?_⟩
  · simp only [List.forall_mem_map, List.mem_range, dataChunk_length]
    omega
  · simp only [List.range_succ, List.map_append, List.map_singleton, List.dropLast_concat, List.forall_mem_map,
      List.mem_range, dataChunk_length]
    omega
  · rw [List.flatMap_map, subBlocks, hn]
    rfl

/-- Settles O54: the clear code alone has bits, so there is at least one data byte. -/
theorem lzwBlockFraming : Obligations.LzwBlockFraming := by
  unfold Obligations.LzwBlockFraming
  intro bits first rest h2 _
  obtain ⟨data, hblock, hbits⟩ := lzwBlock_subBlocks h2 first rest
  rw [hblock]
  apply isLzwBlock_of_data
  rintro rfl
  simp [lzwCodes, totalWidth] at hbits

/-- Settles O55: FLUSH pads the pending bits of the code stream with zeros into its last data byte. -/
theorem lzwBlockPacksCodeStream : Obligations.LzwBlockPacksCodeStream := by
  unfold Obligations.LzwBlockPacksCodeStream
  intro bits first rest h2 h8 hidx
  obtain ⟨-, -, hfit, -⟩ := codeStreamInvariants bits first rest h2 h8 hidx
  obtain ⟨data, hpacked, hcnt⟩ := (packed_start bits).foldl_emitAt _ (packerStart_bitcnt_lt bits) fun c hc => (hfit c hc).1
  rw [lzwBlock_cons h2, hpacked.written.flush]
  congr 3
  have hstream := hpacked.bits
  have hpending := hpacked.pending
  rw [List.nil_append] at hstream
  rw [hstream]
  generalize (lzwCodes bits first rest).foldl emitAt (packerStart bits) = z at hcnt hpending ⊢
  unfold flushedData
  split
  · next hzero => simp [hzero, lowBits, packedBytes_dataBits]
  · next hsome =>
    have hlow : z.pack.bitbuf &&& 0xFF = z.pack.bitbuf := by
      rw [and_low_byte]
      exact Nat.mod_eq_of_lt (hpending.trans (Nat.pow_lt_pow_right (by decide) hcnt))
    rw [hlow, packedBytes_pending data (Nat.pos_of_ne_zero hsome) hcnt hpending]

end Sys2Proof.Machine
end

section
/-! The quantizer's statements over a whole frame (20_memory.md R55; 41_palette_quantizer.md R100, R101, R104, R109, R110), and
the sizes of a frame's record (42_gif_frame_serializer.md R139; 00_scope.md R13). -/

namespace Sys2Proof.Machine

/-! ### Integer arithmetic (00_scope.md R13) -/

theorem ceilDiv_le_iff {a b c : Nat} (hb : 0 < b) : ceilDiv a b ≤ c ↔ a ≤ b * c :=
  ceilDiv_le_iff_le_mul (b := a) hb

/-- Settles O47: the field's limit, and the defining inequalities of the quotient of 2a + b by 2b. -/
theorem delayRangeAndRounding : Obligations.DelayRangeAndRounding := by
  unfold Obligations.DelayRangeAndRounding
  constructor
  · intro d
    rw [← not_lt, ← not_lt, not_iff_not]
    exact delay_overflow_iff d
  · intro a b hb
    exact ⟨Nat.mul_div_le _ _, Nat.lt_mul_div_succ _ (by omega)⟩

/-! ### Pixels (20_memory.md R55) -/

/-- Buffers of whole pixels that differ in A bytes only hold the same colours. -/
theorem pixels_eq_of_rgb {xs ys : List Byte} {n : Nat} (hx : xs.length = 4 * n) (hy : ys.length = 4 * n)
    (hrgb : ∀ i, i % 4 ≠ 3 → xs[i]? = ys[i]?) : pixels xs = pixels ys := by
  obtain ⟨hxlen, hxpix⟩ := pixels_spec n xs hx
  obtain ⟨hylen, hypix⟩ := pixels_spec n ys hy
  have hbyte : ∀ i, i % 4 ≠ 3 → xs.getD i 0#8 = ys.getD i 0#8 := by
    intro i hi
    rw [List.getD_eq_getElem?_getD, List.getD_eq_getElem?_getD, hrgb i hi]
  apply List.ext_getElem?
  intro p
  rcases Nat.lt_or_ge p n with hp | hp
  · rw [hxpix p hp, hypix p hp, hbyte (4 * p) (by omega), hbyte (4 * p + 1) (by omega), hbyte (4 * p + 2) (by omega)]
  · rw [List.getElem?_eq_none (by omega), List.getElem?_eq_none (by omega)]

/-- Settles O33: a frame's bytes are a function of its colours. -/
theorem pixelLayout : Obligations.PixelLayout := by
  unfold Obligations.PixelLayout
  refine ⟨fun bs n => pixels_spec n bs, fun xs ys delayMs w h hx hy hrgb => ?_⟩
  rw [frameBytes, frameBytes, frameWork, frameWork,
    pixels_eq_of_rgb (hx.trans (Nat.mul_comm _ 4)) (hy.trans (Nat.mul_comm _ 4)) hrgb]

/-- A buffer of a frame of at least one pixel holds a pixel. -/
theorem pixels_ne_nil {bs : List Byte} {n : Nat} (hlen : bs.length = n * 4) (hn : 1 ≤ n) : pixels bs ≠ [] := by
  have hcount := (pixels_spec n bs (hlen.trans (Nat.mul_comm n 4))).1
  intro hnil
  rw [hnil, List.length_nil] at hcount
  omega

/-! ### SAMPLE (R100) -/

theorem sampleStep_of_le {p : Nat} (hp : p ≤ 10000) : sampleStep p = 1 := if_neg (not_lt.mpr hp)

/-- Above 10000 pixels the step is the least number of which 10000 reach all pixels. -/
theorem sampleStep_of_gt {p : Nat} (hp : 10000 < p) :
    (sampleStep p - 1) * 10000 < p ∧ p ≤ sampleStep p * 10000 := by
  have hstep : sampleStep p = ceilDiv p 10000 := if_pos hp
  rw [hstep]
  unfold ceilDiv
  omega

theorem sampleStep_pos (p : Nat) : 0 < sampleStep p := by
  rcases Nat.lt_or_ge 10000 p with hp | hp
  · have := (sampleStep_of_gt hp).2
    omega
  · rw [sampleStep_of_le hp]
    decide

theorem sample_getElem? (p k : Nat) (px : List Rgb) : (sample p px)[k]? = px[k * sampleStep p]? := by
  rw [sample, everyNth_getElem? _ (sampleStep_pos p), Nat.zero_add]

/-- The number of samples: as many as there are multiples of the step below P. -/
theorem sample_length (px : List Rgb) : (sample px.length px).length = ceilDiv px.length (sampleStep px.length) := by
  refine eq_of_forall_ge_iff fun k => ?_
  rw [ceilDiv_le_iff (sampleStep_pos _), ← List.getElem?_eq_none_iff, sample_getElem?, List.getElem?_eq_none_iff,
    Nat.mul_comm]

/-- Settles O34: sample k is pixel k·step, and 10000 steps reach every pixel. -/
theorem samplesEveryStep : Obligations.SamplesEveryStep := by
  unfold Obligations.SamplesEveryStep
  rintro px _ rfl -
  refine ⟨sampleStep_of_le, sampleStep_of_gt, sample_length px, ?_, fun k _ => sample_getElem? _ k px⟩
  rw [sample_length, ceilDiv_le_iff (sampleStep_pos _)]
  rcases Nat.lt_or_ge 10000 px.length with hp | hp
  · exact (sampleStep_of_gt hp).2
  · rw [sampleStep_of_le hp]
    omega

/-! ### MEDIAN_CUT_LOOP (R104) -/

/-- The buckets before every round: 1 to 256 of them, none empty, together the samples. -/
structure CutOf (samples : List Rgb) (bs : List Bucket) : Prop where
  length_pos : 1 ≤ bs.length
  length_le : bs.length ≤ 256
  nonempty : ∀ b ∈ bs, b ≠ []
  members : bs.flatten.Perm samples

theorem cutOf_initBuckets {samples : List Rgb} (h : samples ≠ []) : CutOf samples (initBuckets samples) where
  length_pos := le_refl 1
  length_le := by simp [initBuckets]
  nonempty := by simpa [initBuckets] using h
  members := by simp [initBuckets]

/-- A bucket replaced by one part of it, with the other part appended, keeps the members. -/
theorem flatten_set_append_perm {bs : List Bucket} {j : Nat} {b lo hi : Bucket} (hb : bs[j]? = some b)
    (hparts : (lo ++ hi).Perm b) : (bs.set j lo ++ [hi]).flatten.Perm bs.flatten := by
  obtain ⟨hj, rfl⟩ := List.getElem?_eq_some_iff.mp hb
  obtain ⟨before, after, hbs, -, hset⟩ := List.exists_of_set (a' := lo) hj
  rw [hset]
  conv_rhs => rw [hbs]
  simp only [List.flatten_append, List.flatten_cons, List.flatten_nil, List.append_nil, List.append_assoc]
  refine List.Perm.append_left _ ?_
  have hswap : (lo ++ (after.flatten ++ hi)).Perm (lo ++ hi ++ after.flatten) := by
    rw [List.append_assoc]
    exact List.perm_append_comm.append_left lo
  exact hswap.trans (hparts.append_right _)

/-- SPLIT of a bucket of two members or more leaves two that are not empty, and loses none. -/
theorem CutOf.splitBucket {samples : List Rgb} {bs : List Bucket} (h : CutOf samples bs) (hlt : bs.length < 256) {j : Nat}
    {c : Channel} (hsel : selectSplit bs = some (j, c)) :
    CutOf samples (Machine.splitBucket bs j c) ∧ (Machine.splitBucket bs j c).length = bs.length + 1 := by
  obtain ⟨b, hb, hmembers, -, -⟩ := (selectTakesFirstWidest bs).2 j c hsel
  obtain ⟨lo, hi, hsplit, hlo, hhi, hparts, -, -⟩ := splitHalvesSortedBucket bs j c b hb hmembers
  have hlen : (bs.set j lo ++ [hi]).length = bs.length + 1 := by simp
  rw [hsplit]
  refine ⟨⟨by omega, by omega, ?_, (flatten_set_append_perm hb hparts).trans h.members⟩, hlen⟩
  have hlone : lo ≠ [] := List.ne_nil_of_length_pos (by omega)
  have hhine : hi ≠ [] := List.ne_nil_of_length_pos (by omega)
  intro x hx
  rcases List.mem_append.mp hx with hx | hx
  · rcases List.mem_or_eq_of_mem_set hx with hx | rfl
    · exact h.nonempty x hx
    · exact hlone
  · rwa [List.mem_singleton.mp hx]

/-- With rounds enough to reach 256 buckets the loop ends by its own condition. -/
theorem CutOf.medianCut {samples : List Rgb} {n : Nat} {bs : List Bucket} (h : CutOf samples bs) (hn : 256 ≤ bs.length + n) :
    CutOf samples (Machine.medianCut n bs) ∧
      ((Machine.medianCut n bs).length = 256 ∨ selectSplit (Machine.medianCut n bs) = none) := by
  induction n generalizing bs with
  | zero => exact ⟨h, .inl (le_antisymm h.length_le hn)⟩
  | succ n ih =>
    unfold Machine.medianCut
    split
    · next hlt =>
      split
      · next hsel => exact ⟨h, .inr hsel⟩
      · next j c hsel =>
        obtain ⟨hcut, hlen⟩ := h.splitBucket hlt hsel
        exact ih hcut (by omega)
    · next hfull => exact ⟨h, .inl (le_antisymm h.length_le (not_lt.mp hfull))⟩

theorem cutOf_medianCutLoop {samples : List Rgb} (h : samples ≠ []) :
    CutOf samples (medianCutLoop (initBuckets samples)) ∧
      ((medianCutLoop (initBuckets samples)).length = 256 ∨
        selectSplit (medianCutLoop (initBuckets samples)) = none) :=
  (cutOf_initBuckets h).medianCut (le_refl 256)

/-- Settles O38: every round adds one bucket, and 255 of them reach 256. -/
theorem medianCutEnds : Obligations.MedianCutEnds := by
  unfold Obligations.MedianCutEnds
  intro samples hsamples
  obtain ⟨hcut, hend⟩ := cutOf_medianCutLoop hsamples
  exact ⟨hcut.length_pos, hcut.length_le, hend, hcut.nonempty, hcut.members⟩

/-! ### QUANTIZE (R109, R110) -/

/-- The palette of a frame with a pixel has 1 to 256 colours. -/
theorem paletteOf_sample_length {px : List Rgb} (hpx : px ≠ []) (p : Nat) :
    1 ≤ (paletteOf (sample p px)).length ∧ (paletteOf (sample p px)).length ≤ 256 := by
  obtain ⟨hcut, -⟩ := cutOf_medianCutLoop fun hnil => hpx ((sample_eq_nil_iff p px).mp hnil)
  rw [paletteOf, List.length_map]
  exact ⟨hcut.length_pos, hcut.length_le⟩

/-- MAP's indices lie in the palette. -/
theorem lt_length_of_mem_mapPixels {pal px : List Rgb} (hpal : pal ≠ []) (hlen : pal.length ≤ 256) :
    ∀ x ∈ mapPixels pal px, x.toNat < pal.length := by
  intro x hx
  obtain ⟨q, -, rfl⟩ := List.mem_map.mp hx
  rw [toNat_ofNat_nearest hpal hlen]
  exact nearest_lt_length hpal q

/-- Settles O41: QUANTIZE overwrites the palette and the indices, and median cut bounds the palette. -/
theorem quantizerInvariants : Obligations.QuantizerInvariants := by
  unfold Obligations.QuantizerInvariants
  intro w h bs left hlen hpos
  have hpx := pixels_ne_nil hlen hpos
  obtain ⟨hpal, hidx⟩ := quantize_of_pixels (w * h) hpx Work.empty
  obtain ⟨hge, hle⟩ := paletteOf_sample_length hpx (w * h)
  have hne : paletteOf (sample (w * h) (pixels bs)) ≠ [] := List.ne_nil_of_length_pos hge
  rw [frameWork, hpal, hidx]
  refine ⟨rfl, rfl, hge, hle, ?_, lt_length_of_mem_mapPixels hne hle, ?_, ?_⟩
  · rw [mapPixels_length]
    exact (pixels_spec (w * h) bs (hlen.trans (Nat.mul_comm _ 4))).1
  · exact (quantize_of_pixels (w * h) hpx left).1
  · exact (quantize_of_pixels (w * h) hpx left).2

/-! ### The sizes of a frame's record (42_gif_frame_serializer.md R139) -/

/-- A frame's indices fit the table bits of its palette, and there is one. -/
theorem frameWork_idx_spec {w h : Nat} {bs : List Byte} (hlen : bs.length = w * h * 4) (hpos : 1 ≤ w * h) :
    ∃ first rest, (frameWork w h bs).idx = first :: rest ∧
      ∀ x ∈ first :: rest, x.toNat < 2 ^ paletteBits (frameWork w h bs).pal.length := by
  obtain ⟨-, -, -, hle, hcount, hlt, -, -⟩ := quantizerInvariants w h bs Work.empty hlen hpos
  have hne : (frameWork w h bs).idx ≠ [] := List.ne_nil_of_length_pos (by omega)
  obtain ⟨first, rest, hidx⟩ := List.exists_cons_of_ne_nil hne
  refine ⟨first, rest, hidx, ?_⟩
  rw [← hidx]
  exact fun x hx => (hlt x hx).trans_le (le_two_pow_paletteBits hle)

/-- The three codes that every frame has are of three bits or more. -/
theorem le_totalWidth_lzwCodes {mcs : Nat} (h2 : 2 ≤ mcs) (h8 : mcs ≤ 8) {first : Byte} {rest : List Byte}
    (hidx : ∀ x ∈ first :: rest, x.toNat < 2 ^ mcs) : 9 ≤ totalWidth (lzwCodes mcs first rest) := by
  obtain ⟨-, -, hfit, -, hcount, -, -⟩ := codeStreamInvariants mcs first rest h2 h8 hidx
  have hwidth : ∀ n ∈ (lzwCodes mcs first rest).map Prod.snd, 3 ≤ n := by
    rw [List.forall_mem_map]
    intro c hc
    have hge := (hfit c hc).2.1
    omega
  have hsum := List.card_nsmul_le_sum _ 3 hwidth
  rw [List.length_map, smul_eq_mul] at hsum
  unfold totalWidth
  omega

/-- Two data bytes take a sub-block of at least three bytes. -/
theorem le_subBlocks_length {data : List Byte} (hdata : 2 ≤ data.length) : 3 ≤ (subBlocks data).length := by
  obtain ⟨n, hn⟩ : ∃ n, ceilDiv data.length 255 = n + 1 := Nat.exists_eq_add_one.mpr (by unfold ceilDiv; omega)
  have hfirst := dataChunk_length data 0
  unfold dataChunk at hfirst
  rw [subBlocks, hn, List.range_succ_eq_map, List.flatMap_cons, List.length_append, subBlock, List.length_cons, hfirst]
  omega

/-- The LZW block of a frame's indices has 5 bytes or more: mcs, a sub-block of two data bytes, the terminator. -/
theorem le_lzwBlock_length {mcs : Nat} (h2 : 2 ≤ mcs) (h8 : mcs ≤ 8) {first : Byte} {rest : List Byte}
    (hidx : ∀ x ∈ first :: rest, x.toNat < 2 ^ mcs) : 5 ≤ (lzwBlock mcs (first :: rest)).length := by
  have hbits := le_totalWidth_lzwCodes h2 h8 hidx
  obtain ⟨data, hblock, hdata⟩ := lzwBlock_subBlocks h2 first rest
  have hlen := le_subBlocks_length (data := data) (by omega)
  rw [hblock, List.length_cons, List.length_append, List.length_singleton]
  omega

/-- The record of a frame of at least one pixel: 18 bytes, the colour table and the LZW block. -/
theorem frameBytes_length_spec (delayMs : Nat) {w h : Nat} {bs : List Byte} (hlen : bs.length = w * h * 4)
    (hpos : 1 ≤ w * h) :
    let bits := paletteBits (frameWork w h bs).pal.length
    let l := (lzwBlock bits (frameWork w h bs).idx).length
    2 ≤ bits ∧ bits ≤ 8 ∧ 5 ≤ l ∧ (frameBytes delayMs w h bs).length = 8 + 10 + 3 * 2 ^ bits + l ∧
      35 ≤ (frameBytes delayMs w h bs).length := by
  intro bits l
  obtain ⟨h2, h8⟩ := paletteBits_bounds (frameWork w h bs).pal.length
  obtain ⟨first, rest, hidx, hlt⟩ := frameWork_idx_spec hlen hpos
  have hblock : 5 ≤ l := by
    show 5 ≤ (lzwBlock bits (frameWork w h bs).idx).length
    rw [hidx]
    exact le_lzwBlock_length h2 h8 hlt
  have hsize : (frameBytes delayMs w h bs).length = 8 + 10 + 3 * 2 ^ bits + l := by
    rw [frameBytes, List.length_append, frameHead_length]
  have htable : 2 ^ 2 ≤ 2 ^ bits := Nat.pow_le_pow_right (by decide) h2
  exact ⟨h2, h8, hblock, hsize, by omega⟩

/-- A frame of at least one pixel is a frame of the stream grammar (30_encoding.md R81). -/
theorem isFrame_frameBytes (delayMs : Nat) {w h : Nat} {bs : List Byte} (hlen : bs.length = w * h * 4) (hpos : 1 ≤ w * h) :
    IsFrame w h (frameBytes delayMs w h bs) := by
  obtain ⟨h2, h8⟩ := paletteBits_bounds (frameWork w h bs).pal.length
  obtain ⟨first, rest, hidx, -⟩ := frameWork_idx_spec hlen hpos
  refine ⟨delayCs delayMs, paletteBits (frameWork w h bs).pal.length, colorTable (frameWork w h bs).pal _,
    lzwBlock _ (frameWork w h bs).idx, h2, h8, colorTable_length _ _, ?_, rfl⟩
  rw [hidx]
  exact lzwBlockFraming _ first rest h2 h8

end Sys2Proof.Machine
end

section
/-! The commands' statements (44_container_commands.md R181, R185 to R187; 60_exceptions.md R201, R202): where each faults before
it changes anything, what it leaves, in STATUS too (10_state.md R25), and what it neither reads nor writes. -/

namespace Sys2Proof.Machine

/-! ### A command is its checks, and then its effect -/

/-- The fault CONFIGURE's checks raise (R185), none if they pass. -/
def configureFault (p : Config.Params) (w h : BitVec 16) (eff : Nat) : FaultCode :=
  if w = 0#16 ∨ h = 0#16 then .badDimensions
  else if 655354 < eff then .delayRange
  else if exceeds (w.toNat * h.toNat) p.maxFramePixels = true then .capacity
  else .none

/-- The fault a command raises before it changes anything, on a block that is not FAULTED; none if its checks pass. -/
def preciseFault (s : State) : Instr → FaultCode
  | .configureDefault w h => configureFault s.params w h 100
  | .configureDelay w h d => configureFault s.params w h (effectiveDelayGiven s.params d)
  | .addFrame =>
    if s.status.cfg = false then .notConfigured
    else if s.status.fin = true then .afterFinish
    else if s.pixLen ≠ s.pixelCount * 4 then .bufferLength
    else .none
  | .finish =>
    if s.status.cfg = false then .notConfigured
    else if s.status.fin = true then .afterFinish
    else .none
  | .readOutput => if s.status.cfg = false then .notConfigured else .none
  | .getBlob => if s.status.cfg = false then .notConfigured else .none

/-- What a command does once its checks have passed. -/
def pastChecks (s : State) (i : Instr) : Result :=
  if (i = .addFrame ∨ i = .finish) ∧ s.fits (s.appendedBy i).length = false then raiseAppendCapacity s
  else if i = .addFrame ∧ pixels s.pixBytes = [] then .refused .emptyFrame
  else .next (completedState s i)

/-- The fault f entered if there is one, and otherwise the rest of the command. -/
def checked (s : State) (f : FaultCode) (r : Result) : Result := if f = .none then r else .next (s.afterFault f)

theorem checked_none (s : State) (r : Result) : checked s .none r = r := rfl

theorem checked_fault {f : FaultCode} (hf : f ≠ .none) (s : State) (r : Result) : checked s f r = .next (s.afterFault f) :=
  if_neg hf

/-- One check before the others. -/
theorem checked_check {c : Prop} [Decidable c] {f g : FaultCode} (hf : f ≠ .none) {s : State} {x r : Result}
    (hx : x = checked s g r) : (if c then raiseFault f s else x) = checked s (if c then f else g) r := by
  split
  · exact (checked_fault hf s r).symm
  · exact hx

theorem configureWith_eq_checked (w h : BitVec 16) (eff : Nat) (s : State) :
    configureWith w h eff s =
      checked s (configureFault s.params w h eff)
        (complete .empty (((s.setConfig w h (BitVec.ofNat 23 eff)).setOut []).setStatus s.status.configured)) := by
  simp only [configureWith, configureFault, delay_overflow_iff]
  exact checked_check (by decide) (checked_check (by decide) (checked_check (by decide) rfl))

/-- ADD_FRAME past its checks. -/
theorem addFrame_pastChecks (s : State) :
    (headerThen s fun s => frameHeadThen (quantizeFrame s) fun s => lzwThen s fun s => complete .empty s.discardWork) =
      pastChecks s .addFrame := by
  have hidx : (quantize s.pixelCount (pixels s.pixBytes) s.work).idx = [] ↔ pixels s.pixBytes = [] := by
    rw [← List.length_eq_zero_iff, quantize_idx_length, List.length_eq_zero_iff]
  have hpast : pastChecks s .addFrame =
      if s.fits s.addFrameBytes.length = false then raiseAppendCapacity s
      else if pixels s.pixBytes = [] then .refused .emptyFrame
      else .next (completedState s .addFrame) := by
    simp [pastChecks, State.appendedBy]
  rw [hpast]
  by_cases hpx : pixels s.pixBytes = []
  · rw [addFrame_append_empty s (hidx.mpr hpx), if_pos hpx, appendThen]
    cases s.fits s.addFrameBytes.length <;> rfl
  · rw [addFrame_append s (mt hidx.mp hpx), if_neg hpx, appendThen]
    cases s.fits s.addFrameBytes.length <;> rfl

/-- FINISH past its checks. -/
theorem finish_pastChecks (s : State) :
    (headerThen s fun s => appendThen trailer s fun s => complete .empty (s.setStatus s.status.finished)) =
      pastChecks s .finish := by
  have hpast : pastChecks s .finish =
      if s.fits s.finishBytes.length = false then raiseAppendCapacity s else .next (completedState s .finish) := by
    simp [pastChecks, State.appendedBy]
  rw [hpast, finish_append, appendThen]
  cases s.fits s.finishBytes.length <;> rfl

/-- Every command, on a block that is not FAULTED. -/
theorem exec_eq_checked (i : Instr) {s : State} (hs : s.status.fault = .none) :
    exec i s = checked s (preciseFault s i) (pastChecks s i) := by
  cases i with
  | configureDefault w h =>
    rw [exec, execConfigureDefault, accept_of_none hs]
    exact configureWith_eq_checked w h 100 s
  | configureDelay w h d =>
    rw [exec, execConfigureDelay, accept_of_none hs]
    exact configureWith_eq_checked w h (effectiveDelayGiven s.params d) s
  | addFrame =>
    rw [exec, execAddFrame, accept_of_none hs, requireConfigured, requireOpen, addFrame_pastChecks]
    exact checked_check (by decide) (checked_check (by decide) (checked_check (by decide) rfl))
  | finish =>
    rw [exec, execFinish, accept_of_none hs, requireConfigured, requireOpen, finish_pastChecks]
    exact checked_check (by decide) (checked_check (by decide) rfl)
  | readOutput =>
    rw [exec_readOutput_of_no_fault hs, requireConfigured]
    exact checked_check (by decide) rfl
  | getBlob =>
    rw [exec_getBlob_of_no_fault hs, requireConfigured]
    exact checked_check (by decide) rfl

theorem exec_of_preciseFault {i : Instr} {s : State} {f : FaultCode} (hs : s.status.fault = .none)
    (hf : preciseFault s i = f) (hne : f ≠ .none) : exec i s = .next (s.afterFault f) := by
  rw [exec_eq_checked i hs, hf, checked_fault hne]

/-- A command whose conditions hold completes. -/
theorem exec_of_runsToEnd {i : Instr} {s : State} (hs : s.status.fault = .none) (h : RunsToEnd s i) :
    exec i s = .next (completedState s i) := by
  rw [exec_eq_checked i hs]
  cases i with
  | configureDefault w h' =>
    obtain ⟨hw, hh, hpix⟩ := h
    simp [checked, preciseFault, configureFault, pastChecks, hw, hh, hpix]
  | configureDelay w h' d =>
    obtain ⟨hw, hh, hd, hpix⟩ := h
    simp [checked, preciseFault, configureFault, pastChecks, hw, hh, hpix, not_lt.mpr hd]
  | addFrame =>
    obtain ⟨hcfg, hfin, hlen, hpx, hfits⟩ := h
    simp [checked, preciseFault, pastChecks, State.appendedBy, hcfg, hfin, hlen, hpx, hfits]
  | finish =>
    obtain ⟨hcfg, hfin, hfits⟩ := h
    simp [checked, preciseFault, pastChecks, State.appendedBy, hcfg, hfin, hfits]
  | readOutput =>
    have hcfg : s.status.cfg = true := h
    simp [checked, preciseFault, pastChecks, hcfg]
  | getBlob =>
    have hcfg : s.status.cfg = true := h
    simp [checked, preciseFault, pastChecks, hcfg]

/-! ### Faults before anything changes (R185 to R187, R201, R202) -/

theorem lt_effectiveDelayGiven (p : Config.Params) {d : BitVec 23} (hd : 655354 < d.toNat) :
    655354 < effectiveDelayGiven p d := by
  have hne : ¬ (d.toNat = 0 ∧ p.zeroDelayMeansDefault = true) := fun hzero => by omega
  rwa [effectiveDelayGiven, if_neg hne]

/-- Settles O15: the checks of CONFIGURE in their order. -/
theorem configureTraps : Obligations.ConfigureTraps := by
  unfold Obligations.ConfigureTraps
  intro s w h d hs
  refine ⟨fun hdims => ⟨?_, ?_⟩, fun hw hh hd => ?_, fun m hw hh hm hlt => ⟨?_, fun hd => ?_⟩⟩
  · exact exec_of_preciseFault hs (if_pos hdims) (by decide)
  · exact exec_of_preciseFault hs (if_pos hdims) (by decide)
  · refine exec_of_preciseFault hs ?_ (by decide)
    simp [preciseFault, configureFault, hw, hh, lt_effectiveDelayGiven s.params hd]
  · refine exec_of_preciseFault hs ?_ (by decide)
    simp [preciseFault, configureFault, hw, hh, hm, exceeds, hlt]
  · refine exec_of_preciseFault hs ?_ (by decide)
    simp [preciseFault, configureFault, hw, hh, hm, exceeds, hlt, not_lt.mpr (effectiveDelayGiven_le s.params hd)]

/-- Settles O17: the checks of ADD_FRAME in their order. -/
theorem addFrameTraps : Obligations.AddFrameTraps := by
  unfold Obligations.AddFrameTraps
  intro s hs
  refine ⟨fun hcfg => ?_, fun hcfg hfin => ?_, fun hcfg hfin hlen => ?_⟩
  · exact exec_of_preciseFault hs (if_pos hcfg) (by decide)
  · exact exec_of_preciseFault hs (by simp [preciseFault, hcfg, hfin]) (by decide)
  · have hcount : s.pixLen ≠ s.pixelCount * 4 := hlen
    exact exec_of_preciseFault hs (by simp [preciseFault, hcfg, hfin, hcount]) (by decide)

/-- Settles O19: the checks of FINISH in their order. -/
theorem finishTraps : Obligations.FinishTraps := by
  unfold Obligations.FinishTraps
  intro s hs
  refine ⟨fun hcfg => ?_, fun hcfg hfin => ?_⟩
  · exact exec_of_preciseFault hs (if_pos hcfg) (by decide)
  · exact exec_of_preciseFault hs (by simp [preciseFault, hcfg, hfin]) (by decide)

/-- Settles O23: a fault is precise, or it is an append's CAPACITY, which CONFIGURE never raises. -/
theorem faultsArePrecise : Obligations.FaultsArePrecise := by
  unfold Obligations.FaultsArePrecise
  intro i s t hs h ht hcap
  rcases exec_next_cases h with ⟨hne, -⟩ | ⟨f, -, -, rfl⟩ | ⟨hi, -, hfull⟩ | ⟨-, rfl⟩
  · exact absurd hs hne
  · rfl
  · have hconf := hcap (fault_of_raiseAppendCapacity hfull)
    rcases hi with rfl | rfl <;> cases hconf
  · exact absurd ((completedState_fault s i).trans hs) ht

/-! ### Commands that complete (R186, R187) -/

/-- ADD_FRAME on a buffer of the right length for a frame of at least one pixel. -/
theorem runsToEnd_addFrame {s : State} (hcfg : s.status.cfg = true) (hfin : s.status.fin = false)
    (hlen : s.pixLen = s.pixelCount * 4) (hpos : 1 ≤ s.pixelCount) (hfits : s.fits s.addFrameBytes.length = true) :
    RunsToEnd s .addFrame :=
  ⟨hcfg, hfin, hlen, pixels_ne_nil ((Memory.bytes_length s.pix).trans hlen) hpos, hfits⟩

/-- Settles O16: the checks pass, the frame has a pixel, and its bytes fit. -/
theorem addFrameCompletes : Obligations.AddFrameCompletes := by
  unfold Obligations.AddFrameCompletes
  intro s hs hcfg hfin hw hh hlen hroom
  have hrun := runsToEnd_addFrame hcfg hfin hlen (Nat.mul_pos hw hh) ((s.fits_iff _).mpr hroom)
  exact ⟨_, _, exec_of_runsToEnd hs hrun⟩

/-- Settles O18: the checks pass and the bytes fit. -/
theorem finishCompletes : Obligations.FinishCompletes := by
  unfold Obligations.FinishCompletes
  intro s hs hcfg hfin hroom
  exact exec_of_runsToEnd (i := .finish) hs ⟨hcfg, hfin, (s.fits_iff _).mpr hroom⟩

/-- An ADD_FRAME that completes had a buffer of a frame of at least one pixel. -/
theorem pixBytes_length_of_runsToEnd {s : State} (h : RunsToEnd s .addFrame) :
    s.pixBytes.length = s.width.toNat * s.height.toNat * 4 ∧ 1 ≤ s.width.toNat * s.height.toNat := by
  obtain ⟨-, -, hlen, hpx, -⟩ := h
  have hbytes : s.pixBytes.length = s.width.toNat * s.height.toNat * 4 := (Memory.bytes_length s.pix).trans hlen
  refine ⟨hbytes, Nat.pos_of_ne_zero fun hzero => hpx ?_⟩
  rw [hzero, Nat.zero_mul, List.length_eq_zero_iff] at hbytes
  rw [hbytes]
  rfl

/-- Settles O48: the record of a frame, and that ADD_FRAME appends at least the record. -/
theorem frameByteCounts : Obligations.FrameByteCounts := by
  unfold Obligations.FrameByteCounts
  refine ⟨fun delayMs w h bs hlen hpos => frameBytes_length_spec delayMs hlen hpos, fun s t h ht => ?_⟩
  obtain ⟨hrun, rfl⟩ := exec_next_of_no_fault h ht
  obtain ⟨hlen, hpos⟩ := pixBytes_length_of_runsToEnd hrun
  obtain ⟨-, -, -, -, hframe⟩ := frameBytes_length_spec s.delayMs.toNat hlen hpos
  have hout : (completedState s .addFrame).outLen = s.outLen + s.addFrameBytes.length := s.appendOut_outLen _
  rw [hout, State.addFrameBytes, List.length_append]
  omega

/-! ### STATUS (10_state.md R25; 60_exceptions.md R200) -/

/-- STATUS bit by bit (R25). -/
theorem Status.word_getLsbD (st : Status) (i : Nat) :
    st.word.getLsbD i =
      if i = 0 then st.cfg
      else if i = 1 then st.hdr
      else if i = 2 then st.fin
      else if i = 3 then false
      else (FaultCode.code st.fault).getLsbD (i - 4) := by
  change (FaultCode.code st.fault ++ 0#1 ++ BitVec.ofBool st.fin ++ BitVec.ofBool st.hdr ++ BitVec.ofBool st.cfg :
    BitVec (4 + 1 + 1 + 1 + 1)).getLsbD i = _
  simp only [BitVec.getLsbD_append]
  match i with
  | 0 => simp
  | 1 => simp
  | 2 => simp
  | 3 => simp
  | j + 4 => simp

/-- The codes R200 assigns are 0 to 7. -/
theorem FaultCode.code_toNat_le (f : FaultCode) : (FaultCode.code f).toNat ≤ 7 := by
  cases f <;> decide

theorem FaultCode.code_eq_zero_iff (f : FaultCode) : FaultCode.code f = 0#4 ↔ f = .none := by
  cases f <;> decide

/-- Settles O13: the table of the codes, and STATUS bit by bit. -/
theorem statusByteLayout : Obligations.StatusByteLayout := by
  unfold Obligations.StatusByteLayout
  refine ⟨⟨rfl, rfl, rfl, rfl, rfl, rfl, rfl, rfl⟩, fun st => ?_⟩
  refine ⟨st.word_getLsbD 0, st.word_getLsbD 1, st.word_getLsbD 2, st.word_getLsbD 3, ?_, st.fault.code_toNat_le,
    st.fault.code_eq_zero_iff⟩
  apply BitVec.eq_of_getLsbD_eq
  intro i hi
  have hbit : st.word.getLsbD (4 + i) = (FaultCode.code st.fault).getLsbD i := by
    rw [Nat.add_comm, st.word_getLsbD]
    simp
  rw [BitVec.getLsbD_extractLsb', hbit, decide_eq_true hi, Bool.true_and]
/-! ### Lifecycle states (R181; 10_state.md R30) -/

theorem Status.lifecycle_faulted_iff (st : Status) : st.lifecycle = .faulted ↔ st.fault ≠ .none := by
  unfold Status.lifecycle
  split_ifs <;> simp_all

theorem Status.lifecycle_unconfigured_iff (st : Status) :
    st.lifecycle = .unconfigured ↔ st.fault = .none ∧ st.cfg = false := by
  unfold Status.lifecycle
  split_ifs <;> simp_all

theorem Status.lifecycle_finished_iff (st : Status) :
    st.lifecycle = .finished ↔ st.fault = .none ∧ st.cfg = true ∧ st.fin = true := by
  unfold Status.lifecycle
  split_ifs <;> simp_all

/-- Before the first CONFIGURE every other command raises NOT_CONFIGURED. -/
theorem preciseFault_of_not_cfg {i : Instr} {s : State} (hi : isConfigure i = false) (hcfg : s.status.cfg = false) :
    preciseFault s i = .notConfigured := by
  cases i with
  | configureDefault w h => cases hi
  | configureDelay w h d => cases hi
  | addFrame => exact if_pos hcfg
  | finish => exact if_pos hcfg
  | readOutput => exact if_pos hcfg
  | getBlob => exact if_pos hcfg

/-- The lifecycle state that a command which completes at s leaves. -/
def lifecycleAfter (s : State) : Instr → Lifecycle
  | .configureDefault _ _ => .empty
  | .configureDelay _ _ _ => .empty
  | .addFrame => .opened
  | .finish => .finished
  | .readOutput => s.status.lifecycle
  | .getBlob => s.status.lifecycle

theorem completedState_lifecycle {i : Instr} {s : State} (hs : s.status.fault = .none) (h : RunsToEnd s i) :
    (completedState s i).status.lifecycle = lifecycleAfter s i := by
  cases i with
  | configureDefault w h' => simp [completedState, lifecycleAfter, Status.lifecycle, hs]
  | configureDelay w h' d => simp [completedState, lifecycleAfter, Status.lifecycle, hs]
  | addFrame =>
    obtain ⟨hcfg, hfin, -⟩ := h
    simp [completedState, lifecycleAfter, Status.lifecycle, hs, hcfg, hfin]
  | finish =>
    obtain ⟨hcfg, -⟩ := h
    simp [completedState, lifecycleAfter, Status.lifecycle, hs, hcfg]
  | readOutput => rfl
  | getBlob => rfl

/-- Settles O26: the checks that read STATUS alone, and what each completion writes in STATUS. -/
theorem lifecycleTransitions : Obligations.LifecycleTransitions := by
  unfold Obligations.LifecycleTransitions
  intro i s
  refine ⟨fun hlife => ?_, fun hlife hi => ?_, fun hlife hi => ?_, fun t h ht => ?_⟩
  · exact exec_eq_next_of_fault i (s.status.lifecycle_faulted_iff.mp hlife)
  · obtain ⟨hs, hcfg⟩ := s.status.lifecycle_unconfigured_iff.mp hlife
    exact exec_of_preciseFault hs (preciseFault_of_not_cfg hi hcfg) (by decide)
  · obtain ⟨hs, hcfg, hfin⟩ := s.status.lifecycle_finished_iff.mp hlife
    refine exec_of_preciseFault hs ?_ (by decide)
    rcases hi with rfl | rfl <;> simp [preciseFault, hcfg, hfin]
  · obtain ⟨hrun, rfl⟩ := exec_next_of_no_fault h ht
    rw [completedState_lifecycle ((completedState_fault s i).symm.trans ht) hrun]
    cases i <;> rfl

/-! ### What a command does not write (10_state.md R22 to R26, R31; 20_memory.md R51, R53) -/

/-- Settles O27: of the ways a command can end only CONFIGURE's completion writes these registers. -/
theorem onlyConfigureWritesConfiguration : Obligations.OnlyConfigureWritesConfiguration := by
  unfold Obligations.OnlyConfigureWritesConfiguration
  intro i s t hi h
  rcases exec_next_cases h with ⟨-, rfl⟩ | ⟨f, -, -, rfl⟩ | ⟨-, -, hfull⟩ | ⟨-, rfl⟩
  · exact ⟨rfl, rfl, rfl, rfl⟩
  · exact ⟨rfl, rfl, rfl, rfl⟩
  · cases hfull
    exact ⟨rfl, rfl, rfl, rfl⟩
  · cases i with
    | configureDefault w h => cases hi
    | configureDelay w h d => cases hi
    | addFrame => exact ⟨rfl, rfl, rfl, rfl⟩
    | finish => exact ⟨rfl, rfl, rfl, rfl⟩
    | readOutput => exact ⟨rfl, rfl, rfl, rfl⟩
    | getBlob => exact ⟨rfl, rfl, rfl, rfl⟩

/-- A command other than CONFIGURE that completes appends to OUT. -/
theorem completedState_out {i : Instr} (hi : isConfigure i = false) (s : State) :
    (completedState s i).out = Memory.append s.out (s.appendedBy i) := by
  cases i with
  | configureDefault w h => cases hi
  | configureDelay w h d => cases hi
  | addFrame => rfl
  | finish => rfl
  | readOutput => exact (Memory.append_nil s.out).symm
  | getBlob => exact (Memory.append_nil s.out).symm

/-- Settles O29: an append leaves the bytes outside it alone. -/
theorem onlyAppendedBytesChange : Obligations.OnlyAppendedBytesChange := by
  unfold Obligations.OnlyAppendedBytesChange
  intro i s t hi h ht
  obtain ⟨-, rfl⟩ := exec_next_of_no_fault h ht
  rw [State.outRead, completedState_out hi]
  exact ⟨Memory.append_bytes _ _, Memory.read_append_outside _ _⟩

/-- Settles O30: no way a command can end writes the host's side. -/
theorem hostSideUntouched : Obligations.HostSideUntouched := by
  unfold Obligations.HostSideUntouched
  intro i s t h
  rcases exec_next_cases h with ⟨-, rfl⟩ | ⟨f, -, -, rfl⟩ | ⟨-, -, hfull⟩ | ⟨-, rfl⟩
  · exact ⟨rfl, rfl, rfl⟩
  · exact ⟨rfl, rfl, rfl⟩
  · cases hfull
    exact ⟨rfl, rfl, rfl⟩
  · cases i <;> exact ⟨rfl, rfl, rfl⟩

/-! ### What a command does not read (10_state.md R37; 20_memory.md R51) -/

/-- The working state and the counter of free values replaced. -/
def State.withScratch (s : State) (w : Work) (n : Nat) : State := { s with work := w, freeCount := n }

theorem completedState_withScratch (s : State) (w : Work) (n : Nat) (i : Instr) :
    ∃ w' n', completedState (s.withScratch w n) i = (completedState s i).withScratch w' n' := by
  cases i with
  | configureDefault w' h => exact ⟨w, n, rfl⟩
  | configureDelay w' h d => exact ⟨w, n, rfl⟩
  | addFrame => exact ⟨Config.freeWork n, n + 1, rfl⟩
  | finish => exact ⟨w, n, rfl⟩
  | readOutput => exact ⟨w, n, rfl⟩
  | getBlob => exact ⟨w, n, rfl⟩

/-- Past the checks the working state found matters only after a CAPACITY fault. -/
theorem pastChecks_withScratch {i : Instr} {s t : State} (w : Work) (n : Nat) (h : pastChecks s i = .next t)
    (ht : t.status.fault ≠ .capacity) : ∃ w' n', pastChecks (s.withScratch w n) i = .next (t.withScratch w' n') := by
  have hcond : pastChecks (s.withScratch w n) i =
      if (i = .addFrame ∨ i = .finish) ∧ s.fits (s.appendedBy i).length = false then
        raiseAppendCapacity (s.withScratch w n)
      else if i = .addFrame ∧ pixels s.pixBytes = [] then .refused .emptyFrame
      else .next (completedState (s.withScratch w n) i) := rfl
  rw [hcond]
  unfold pastChecks at h
  split at h
  · exact absurd (fault_of_raiseAppendCapacity h) ht
  · next hroom =>
    split at h
    · cases h
    · next hpx =>
      cases h
      obtain ⟨w', n', hdone⟩ := completedState_withScratch s w n i
      exact ⟨w', n', by rw [if_neg hroom, if_neg hpx, hdone]⟩

/-- Settles O31: the checks do not read the working state, and nor does what follows them. -/
theorem workingStateNeverRead : Obligations.WorkingStateNeverRead := by
  unfold Obligations.WorkingStateNeverRead
  intro i s t w n h ht
  change ∃ w' n', exec i (s.withScratch w n) = .next (t.withScratch w' n')
  by_cases hs : s.status.fault = .none
  · rw [exec_eq_checked i hs] at h
    rw [exec_eq_checked i (s := s.withScratch w n) hs, show preciseFault (s.withScratch w n) i = preciseFault s i from rfl]
    by_cases hf : preciseFault s i = .none
    · rw [hf, checked_none] at h ⊢
      exact pastChecks_withScratch w n h ht
    · rw [checked_fault hf] at h ⊢
      cases h
      exact ⟨w, n, rfl⟩
  · rw [exec_eq_next_of_fault i hs] at h
    cases h
    exact ⟨w, n, exec_eq_next_of_fault i (s := s.withScratch w n) hs⟩

/-- PIX replaced. -/
def State.withPix (s : State) (m : Memory) : State := { s with pix := m }

/-- Past its checks a command other than ADD_FRAME does the same whatever PIX holds. -/
theorem pastChecks_withPix {i : Instr} (hi : i ≠ .addFrame) (s : State) (m : Memory) :
    pastChecks (s.withPix m) i = afterNext (·.withPix m) (pastChecks s i) := by
  cases i with
  | configureDefault w h => rfl
  | configureDelay w h d => rfl
  | addFrame => exact absurd rfl hi
  | finish =>
    have hfits : (s.withPix m).fits ((s.withPix m).appendedBy .finish).length = s.fits (s.appendedBy .finish).length := rfl
    unfold pastChecks
    rw [hfits]
    cases s.fits (s.appendedBy .finish).length <;> rfl
  | readOutput => rfl
  | getBlob => rfl

theorem exec_withPix {i : Instr} (hi : i ≠ .addFrame) (s : State) (m : Memory) :
    exec i (s.withPix m) = afterNext (·.withPix m) (exec i s) := by
  by_cases hs : s.status.fault = .none
  · have hpre : preciseFault (s.withPix m) i = preciseFault s i := by
      cases i with
      | addFrame => exact absurd rfl hi
      | _ => rfl
    rw [exec_eq_checked i hs, exec_eq_checked i (s := s.withPix m) hs, hpre]
    by_cases hf : preciseFault s i = .none
    · rw [hf, checked_none, checked_none, pastChecks_withPix hi]
    · rw [checked_fault hf, checked_fault hf]
      rfl
  · rw [exec_eq_next_of_fault i hs, exec_eq_next_of_fault i (s := s.withPix m) hs]
    rfl

end Sys2Proof.Machine
end

section
/-! The statements about a step (44_container_commands.md R180; 60_exceptions.md R205, R212; 70_reset_and_hazards.md R220): what
the next host event does, and the invariants that every step keeps (10_state.md R22 to R31; 30_encoding.md R81). -/

namespace Sys2Proof.Machine

/-! ### The next host event -/

theorem step_of_idle {s : State} (h : s.inputs = []) : step s = .next s := by
  unfold step
  rw [h]

theorem step_of_command {s : State} {c : Command} {rest : List HostEvent} (h : s.inputs = .command c :: rest) :
    step s = afterNext State.releasePix (execute c.word (s.present c.pixels rest)) := by
  unfold step
  rw [h]

/-- RESET between commands, and RESET during one. -/
theorem step_of_reset {s : State} {c : Command} {rest : List HostEvent}
    (h : s.inputs = .reset :: rest ∨ s.inputs = .resetDuring c :: rest) :
    step s = .next (s.present [] rest).resetSignal := by
  unfold step
  rcases h with h | h <;> rw [h]

/-- Everything a step can do. -/
theorem step_next_cases {s t : State} (h : step s = .next t) :
    (s.inputs = [] ∧ t = s) ∨
    (∃ c rest u, s.inputs = .command c :: rest ∧ execute c.word (s.present c.pixels rest) = .next u ∧ t = u.releasePix) ∨
    (∃ c rest, (s.inputs = .reset :: rest ∨ s.inputs = .resetDuring c :: rest) ∧
      t = (s.present [] rest).resetSignal) := by
  cases hin : s.inputs with
  | nil =>
    cases (step_of_idle hin).symm.trans h
    exact .inl ⟨rfl, rfl⟩
  | cons event rest =>
    cases event with
    | command c =>
      obtain ⟨u, hu, rfl⟩ := afterNext_eq_next ((step_of_command hin).symm.trans h)
      exact .inr (.inl ⟨c, rest, u, rfl, hu, rfl⟩)
    | reset =>
      have hreset : s.inputs = .reset :: rest ∨ s.inputs = .resetDuring { word := 0#64, pixels := [] } :: rest := .inl hin
      cases (step_of_reset hreset).symm.trans h
      exact .inr (.inr ⟨{ word := 0#64, pixels := [] }, rest, .inl rfl, rfl⟩)
    | resetDuring c =>
      have hreset : s.inputs = .reset :: rest ∨ s.inputs = .resetDuring c :: rest := .inr hin
      cases (step_of_reset hreset).symm.trans h
      exact .inr (.inr ⟨c, rest, .inr rfl, rfl⟩)

/-- Settles O6: a word that decodes is executed as its command, on the presented buffer, which is then given back. -/
theorem stepRunsDecodedCommand : Obligations.StepRunsDecodedCommand := by
  unfold Obligations.StepRunsDecodedCommand
  intro s c rest i hin hdec
  rw [step_of_command hin, execute_of_legal hdec, State.present]
  cases exec i { s with pix := Memory.ofBytes c.pixels, inputs := rest } <;> rfl

/-- Settles O7: both forms of RESET give the reset signal, and a FAULTED block ignores every other event. -/
theorem resetValues : Obligations.ResetValues := by
  unfold Obligations.ResetValues
  refine ⟨by decide, fun s c rest hin => ?_, fun s t hs h ht => ?_⟩
  · have hword : (s.present [] rest).resetSignal.status.word = 0x00#8 := by rw [State.resetSignal_status]; decide
    exact ⟨_, step_of_reset hin, rfl, rfl, rfl, hword, rfl, rfl, rfl, rfl, rfl, rfl⟩
  · rcases step_next_cases h with ⟨-, rfl⟩ | ⟨c, rest, u, -, hu, rfl⟩ | ⟨c, rest, hin, -⟩
    · exact absurd ht hs
    · cases (execute_eq_next_of_fault c.word (s := s.present c.pixels rest) hs).symm.trans hu
      exact absurd ht hs
    · exact ⟨c, rest, hin⟩

/-- Settles O12: execution starts by accepting the word, which a FAULTED block does not. -/
theorem faultedBlockAcceptsNothing : Obligations.FaultedBlockAcceptsNothing := by
  unfold Obligations.FaultedBlockAcceptsNothing
  intro s hs
  refine ⟨fun cmd => execute_eq_next_of_fault cmd hs, fun i => exec_eq_next_of_fault i hs, fun c rest hin => ?_,
    step_of_idle, fun rest hin => ?_, fun hdone => hs hdone.1⟩
  · rw [step_of_command hin, execute_eq_next_of_fault c.word (s := s.present c.pixels rest) hs]
    rfl
  · exact ⟨_, step_of_reset (c := { word := 0#64, pixels := [] }) (.inl hin), rfl⟩

/-- Settles O32: a command's step gives the buffer back, and a command other than ADD_FRAME does not read it. -/
theorem pixNotRetained : Obligations.PixNotRetained := by
  unfold Obligations.PixNotRetained
  refine ⟨fun i s t m hi h => ?_, fun s t c rest hin h => ?_⟩
  · exact (exec_withPix hi s m).trans (congrArg (afterNext (·.withPix m)) h)
  · obtain ⟨u, -, rfl⟩ := afterNext_eq_next ((step_of_command hin).symm.trans h)
    rfl

/-- Settles O25: an accepted word answers once, a word not accepted not at all, and RESET keeps the responses. -/
theorem responsesOnlyGrow : Obligations.ResponsesOnlyGrow := by
  unfold Obligations.ResponsesOnlyGrow
  intro s t h
  rcases step_next_cases h with ⟨-, rfl⟩ | ⟨c, rest, u, -, hu, rfl⟩ | ⟨c, rest, -, rfl⟩
  · exact ⟨[], (List.append_nil _).symm, by decide⟩
  · obtain ⟨hfaulted, haccepted⟩ := responseWord c.word (s.present c.pixels rest) u hu
    by_cases hs : s.status.fault = .none
    · exact ⟨_, haccepted hs, le_refl 1⟩
    · exact ⟨[], (hfaulted hs).trans (List.append_nil _).symm, by decide⟩
  · exact ⟨[], (List.append_nil _).symm, by decide⟩

/-! ### What every step keeps -/

/-- Everything executing a word can do. -/
theorem execute_next_cases {cmd : CmdWord} {s t : State} (h : execute cmd s = .next t) :
    t = s ∨
    (s.status.fault = .none ∧ ∃ f, f ≠ .none ∧ t = s.afterFault f) ∨
    (s.status.cfg = true ∧ s.status.fin = false ∧ raiseAppendCapacity s = .next t) ∨
    (s.status.fault = .none ∧ ∃ i, RunsToEnd s i ∧ t = completedState s i) := by
  by_cases hs : s.status.fault = .none
  · cases hdec : decode cmd with
    | none =>
      cases (execute_of_illegal hs hdec).symm.trans h
      exact .inr (.inl ⟨hs, _, by decide, rfl⟩)
    | some i =>
      rw [execute_of_legal hdec] at h
      have hend := exec_ending i hs
      generalize exec i s = r at h hend
      cases hend with
      | precise f hf _ => exact .inr (.inl ⟨hs, f, hf, (Host.Outcome.next.inj h).symm⟩)
      | appendFull _ hcfg hfin _ => exact .inr (.inr (.inl ⟨hcfg, hfin, h⟩))
      | emptyFrame => cases h
      | completes hrun => exact .inr (.inr (.inr ⟨hs, i, hrun, (Host.Outcome.next.inj h).symm⟩))
  · cases (execute_eq_next_of_fault cmd hs).symm.trans h
    exact .inl rfl

/-- What a property of states has to be kept by for every step to keep it. -/
structure KeptByUpdates (P : State → Prop) : Prop where
  present : ∀ s pixels rest, P s → P (s.present pixels rest)
  releasePix : ∀ s, P s → P s.releasePix
  resetSignal : ∀ s, P s → P s.resetSignal
  afterFault : ∀ s f, P s → s.status.fault = .none → f ≠ .none → P (s.afterFault f)
  appendCapacity : ∀ s t, P s → s.status.cfg = true → s.status.fin = false → raiseAppendCapacity s = .next t → P t
  completed : ∀ s i, P s → s.status.fault = .none → RunsToEnd s i → P (completedState s i)

theorem KeptByUpdates.step {P : State → Prop} (hP : KeptByUpdates P) {s t : State} (hs : P s)
    (h : Machine.step s = .next t) : P t := by
  rcases step_next_cases h with ⟨-, rfl⟩ | ⟨c, rest, u, -, hu, rfl⟩ | ⟨c, rest, -, rfl⟩
  · exact hs
  · have hpres := hP.present s c.pixels rest hs
    apply hP.releasePix
    rcases execute_next_cases hu with rfl | ⟨hnone, f, hf, rfl⟩ | ⟨hcfg, hfin, hfull⟩ | ⟨hnone, i, hrun, rfl⟩
    · exact hpres
    · exact hP.afterFault _ f hpres hnone hf
    · exact hP.appendCapacity _ u hpres hcfg hfin hfull
    · exact hP.completed _ i hpres hnone hrun
  · exact hP.resetSignal _ (hP.present s [] rest hs)

/-! ### The legal states (10_state.md R22 to R31) -/

theorem memoriesWf_kept : KeptByUpdates State.MemoriesWf where
  present := fun _ pixels _ ⟨hout, _⟩ => ⟨hout, Memory.wf_ofBytes pixels⟩
  releasePix := fun _ ⟨hout, _⟩ => ⟨hout, Memory.wf_nil⟩
  resetSignal := fun _ _ => ⟨Memory.wf_nil, Memory.wf_nil⟩
  afterFault := fun _ _ h _ _ => h
  appendCapacity := fun s t ⟨_, hpix⟩ _ _ hfull => by
    cases hfull
    exact ⟨Memory.wf_ofBytes _, hpix⟩
  completed := fun s i ⟨hout, hpix⟩ _ _ => by
    cases i with
    | configureDefault w h => exact ⟨Memory.wf_nil, hpix⟩
    | configureDelay w h d => exact ⟨Memory.wf_nil, hpix⟩
    | addFrame => exact ⟨Memory.wf_append hout _, hpix⟩
    | finish => exact ⟨Memory.wf_append hout _, hpix⟩
    | readOutput => exact ⟨hout, hpix⟩
    | getBlob => exact ⟨hout, hpix⟩

/-- The latches: an append is made on a configured block only, and one that faults leaves FIN at 0. -/
theorem latchesLegal_kept : KeptByUpdates State.LatchesLegal where
  present := fun _ _ _ h => h
  releasePix := fun _ h => h
  resetSignal := fun _ _ => ⟨nofun, nofun⟩
  afterFault := fun _ _ h _ _ => h
  appendCapacity := fun s t _ hcfg hfin hfull => by
    cases hfull
    exact ⟨fun _ => hcfg, fun hfin' => absurd (hfin.symm.trans hfin') Bool.false_ne_true⟩
  completed := fun s i h _ hrun => by
    cases i with
    | configureDefault w h' => exact ⟨nofun, nofun⟩
    | configureDelay w h' d => exact ⟨nofun, nofun⟩
    | addFrame => exact ⟨fun _ => hrun.1, fun _ => rfl⟩
    | finish => exact ⟨fun _ => hrun.1, fun _ => rfl⟩
    | readOutput => exact h
    | getBlob => exact h

/-- On a configured block the registers are legal whatever OUT holds. -/
theorem configLegal_of_configured {s : State} (hcfg : s.status.cfg = true) :
    s.ConfigLegal ↔ 1 ≤ s.width.toNat ∧ 1 ≤ s.height.toNat ∧ s.delayMs.toNat ≤ 655354 ∧
      ∀ m, s.params.maxFramePixels = some m → s.width.toNat * s.height.toNat ≤ m := by
  rw [State.ConfigLegal, if_pos hcfg]

/-- The registers after a CONFIGURE whose checks passed (R185). -/
theorem configLegal_configured {s : State} {w h : BitVec 16} {eff : Nat} (r : Response) (hw : w ≠ 0#16) (hh : h ≠ 0#16)
    (heff : eff ≤ 655354) (hpix : exceeds (w.toNat * h.toNat) s.params.maxFramePixels = false) :
    ((((s.setConfig w h (BitVec.ofNat 23 eff)).setOut []).setStatus s.status.configured).respond r).ConfigLegal := by
  rw [configLegal_of_configured rfl]
  have hpos : ∀ {x : BitVec 16}, x ≠ 0#16 → 1 ≤ x.toNat := fun {x} hx =>
    Nat.pos_of_ne_zero fun hzero => hx ((toNat_eq_zero_iff x).mp hzero)
  refine ⟨hpos hw, hpos hh, ?_, (exceeds_eq_false_iff _ _).mp hpix⟩
  show (BitVec.ofNat 23 eff).toNat ≤ 655354
  rw [BitVec.toNat_ofNat]
  exact (Nat.mod_le _ _).trans heff

/-- What changes neither a configured block's registers nor the parameters keeps them legal. -/
theorem State.ConfigLegal.of_configured {s t : State} (h : s.ConfigLegal) (hcfg : s.status.cfg = true)
    (ht : t.status.cfg = s.status.cfg) (hw : t.width = s.width) (hh : t.height = s.height) (hd : t.delayMs = s.delayMs)
    (hp : t.params = s.params) : t.ConfigLegal := by
  rw [configLegal_of_configured (ht.trans hcfg), hw, hh, hd, hp]
  exact (configLegal_of_configured hcfg).mp h

theorem configLegal_kept : KeptByUpdates State.ConfigLegal where
  present := fun _ _ _ h => h
  releasePix := fun _ h => h
  resetSignal := fun _ _ => ⟨rfl, rfl, rfl, rfl⟩
  afterFault := fun _ _ h _ _ => h
  appendCapacity := fun s t h hcfg _ hfull => by
    cases hfull
    exact h.of_configured hcfg rfl rfl rfl rfl rfl
  completed := fun s i h _ hrun => by
    cases i with
    | configureDefault w h' =>
      obtain ⟨hw, hh, hpix⟩ := hrun
      exact configLegal_configured _ hw hh (by decide : 100 ≤ 655354) hpix
    | configureDelay w h' d =>
      obtain ⟨hw, hh, hd, hpix⟩ := hrun
      exact configLegal_configured _ hw hh hd hpix
    | addFrame => exact h.of_configured hrun.1 rfl rfl rfl rfl rfl
    | finish => exact h.of_configured hrun.1 rfl rfl rfl rfl rfl
    | readOutput => exact h
    | getBlob => exact h

/-- An append that fits keeps OUT within OUT_CAPACITY. -/
theorem outBounded_kept : KeptByUpdates State.OutBounded where
  present := fun _ _ _ h => h
  releasePix := fun _ h => h
  resetSignal := fun _ _ _ _ _ => Nat.zero_le _
  afterFault := fun s f h hs _ _ => h (by rw [hs]; decide)
  appendCapacity := fun s t _ _ _ hfull hne => absurd (fault_of_raiseAppendCapacity hfull) hne
  completed := fun s i h hs hrun hne c hc => by
    have hroom : ∀ bs, s.fits bs.length = true → (s.appendOut bs).outLen ≤ c := fun bs hfits =>
      (s.appendOut_outLen bs).trans_le ((s.fits_iff _).mp hfits c (by cases i <;> exact hc))
    cases i with
    | configureDefault w h' => exact Nat.zero_le _
    | configureDelay w h' d => exact Nat.zero_le _
    | addFrame => exact hroom _ hrun.2.2.2.2
    | finish => exact hroom _ hrun.2.2
    | readOutput => exact h (by rw [hs]; decide) c hc
    | getBlob => exact h (by rw [hs]; decide) c hc

/-- Settles O9: each part of the invariant is kept by every update that a step makes. -/
theorem stepKeepsLegalState : Obligations.StepKeepsLegalState := by
  unfold Obligations.StepKeepsLegalState
  rintro s t ⟨hmem, hlatch, hconf, hout⟩ h
  exact ⟨memoriesWf_kept.step hmem h, latchesLegal_kept.step hlatch h, configLegal_kept.step hconf h,
    outBounded_kept.step hout h⟩

/-- Settles O8: the reset values, and an empty OUT. -/
theorem resetIsLegal : Obligations.ResetIsLegal := by
  unfold Obligations.ResetIsLegal
  exact ⟨⟨⟨rfl, rfl⟩, ⟨nofun, nofun⟩, ⟨rfl, rfl, rfl, rfl⟩, fun _ _ _ => Nat.zero_le _⟩, fun _ => rfl⟩

/-! ### No legal state stops (93 U14) -/

/-- A command is refused for a frame of no pixels only, which a legal configuration does not have. -/
theorem exists_exec_next {s : State} (hconf : s.ConfigLegal) (i : Instr) : ∃ t, exec i s = .next t := by
  by_cases hs : s.status.fault = .none
  · have hend := exec_ending i hs
    generalize exec i s = r at hend ⊢
    cases hend with
    | precise f _ _ => exact ⟨_, rfl⟩
    | appendFull _ _ _ _ => exact ⟨_, rfl⟩
    | completes _ => exact ⟨_, rfl⟩
    | emptyFrame _ hcfg hlen hpx =>
      obtain ⟨hw, hh, -, -⟩ := (configLegal_of_configured hcfg).mp hconf
      exact absurd hpx (pixels_ne_nil ((Memory.bytes_length s.pix).trans hlen) (Nat.mul_pos hw hh))
  · exact ⟨s, exec_eq_next_of_fault i hs⟩

theorem exists_execute_next {s : State} (hconf : s.ConfigLegal) (cmd : CmdWord) : ∃ t, execute cmd s = .next t := by
  cases hdec : decode cmd with
  | none =>
    by_cases hs : s.status.fault = .none
    · exact ⟨_, execute_of_illegal hs hdec⟩
    · exact ⟨s, execute_eq_next_of_fault cmd hs⟩
  | some i =>
    rw [execute_of_legal hdec]
    exact exists_exec_next hconf i

/-- Settles O11: of the host's events only a command could stop, and a legal configuration lets none. -/
theorem legalStatesAlwaysStep : Obligations.LegalStatesAlwaysStep := by
  unfold Obligations.LegalStatesAlwaysStep
  rintro s ⟨-, -, hconf, -⟩
  cases hin : s.inputs with
  | nil => exact ⟨s, step_of_idle hin⟩
  | cons event rest =>
    cases event with
    | command c =>
      obtain ⟨t, ht⟩ := exists_execute_next (s := s.present c.pixels rest) hconf c.word
      exact ⟨t.releasePix, by rw [step_of_command hin, ht, afterNext_next]⟩
    | reset => exact ⟨_, step_of_reset (c := { word := 0#64, pixels := [] }) (.inl hin)⟩
    | resetDuring c => exact ⟨_, step_of_reset (.inr hin)⟩

/-! ### The stream grammar (30_encoding.md R81) -/

/-- What OUT holds with the header still to come put after it is a stream, unfinished. -/
theorem isStream_pendingHeader {s : State} (h : s.StreamLegal) (hs : s.status.fault = .none) (hfin : s.status.fin = false) :
    IsStream s.width.toNat s.height.toNat false (s.outRead ++ s.pendingHeader) := by
  have hstream := h (by rw [hs]; decide)
  unfold State.pendingHeader
  split at hstream
  · next hhdr =>
    rw [if_pos hhdr, List.append_nil, ← hfin]
    exact hstream
  · next hhdr =>
    rw [if_neg hhdr, hstream]
    exact ⟨[], by simp, by simp⟩

/-- A stream with a frame put after it is a stream. -/
theorem IsStream.append_frame {w h : Nat} {bs frame : List Byte} (hbs : IsStream w h false bs) (hframe : IsFrame w h frame) :
    IsStream w h false (bs ++ frame) := by
  obtain ⟨frames, hframes, rfl⟩ := hbs
  refine ⟨frames ++ [frame], ?_, by simp⟩
  intro f hf
  rcases List.mem_append.mp hf with hf | hf
  · exact hframes f hf
  · rwa [List.mem_singleton.mp hf]

/-- A stream with the trailer put after it is finished. -/
theorem IsStream.append_trailer {w h : Nat} {bs : List Byte} (hbs : IsStream w h false bs) :
    IsStream w h true (bs ++ trailer) := by
  obtain ⟨frames, hframes, rfl⟩ := hbs
  exact ⟨frames, hframes, by simp⟩

theorem streamLegal_kept : KeptByUpdates State.StreamLegal where
  present := fun _ _ _ h => h
  releasePix := fun _ h => h
  resetSignal := fun _ _ _ => rfl
  afterFault := fun s f h hs _ _ => h (by rw [hs]; decide)
  appendCapacity := fun s t _ _ _ hfull hne => absurd (fault_of_raiseAppendCapacity hfull) hne
  completed := fun s i h hs hrun _ => by
    cases i with
    | configureDefault w h' => exact rfl
    | configureDelay w h' d => exact rfl
    | addFrame =>
      have hfin : s.status.fin = false := hrun.2.1
      obtain ⟨hlen, hpos⟩ := pixBytes_length_of_runsToEnd hrun
      have hstream := (isStream_pendingHeader h hs hfin).append_frame (isFrame_frameBytes s.delayMs.toNat hlen hpos)
      show IsStream s.width.toNat s.height.toNat s.status.fin (s.appendOut s.addFrameBytes).outRead
      rw [hfin, s.appendOut_outRead, State.addFrameBytes, ← List.append_assoc]
      exact hstream
    | finish =>
      have hstream := (isStream_pendingHeader h hs hrun.2.1).append_trailer
      show IsStream s.width.toNat s.height.toNat true (s.appendOut s.finishBytes).outRead
      rw [s.appendOut_outRead, State.finishBytes, ← List.append_assoc]
      exact hstream
    | readOutput => exact h (by rw [hs]; decide)
    | getBlob => exact h (by rw [hs]; decide)

/-- Settles O10: every append puts whole units of the grammar after what OUT holds. -/
theorem stepKeepsStreamGrammar : Obligations.StepKeepsStreamGrammar := by
  unfold Obligations.StepKeepsStreamGrammar
  exact fun s t hs h => streamLegal_kept.step hs h

end Sys2Proof.Machine
end

section
/-! The block as a whole (00_scope.md R4; 70_reset_and_hazards.md R222): CONFIGURE, one ADD_FRAME per buffer, and FINISH. -/

namespace Sys2Proof.Machine

/-! ### Runs of commands that complete -/

theorem run_succ_of_step {s t : State} (n : Nat) (h : step s = .next t) :
    Host.Core.run core (n + 1) s = Host.Core.run core n t := by
  have hcore : core.step s = .next t := h
  exact (Host.Core.run.eq_2 core s n).trans (by rw [hcore])

theorem run_one_of_step {s t : State} (h : step s = .next t) : Host.Core.run core 1 s = .next t := run_succ_of_step 0 h

/-- A step on the word of a command that completes. -/
theorem step_of_runsToEnd {s : State} {i : Instr} {pixels : List Byte} {rest : List HostEvent}
    (hin : s.inputs = .command { word := encode i, pixels := pixels } :: rest) (hs : s.status.fault = .none)
    (hrun : RunsToEnd (s.present pixels rest) i) :
    step s = .next (completedState (s.present pixels rest) i).releasePix := by
  rw [step_of_command hin, execute_of_legal (decodeEncodeRoundTrip i), exec_of_runsToEnd (s := s.present pixels rest) hs hrun,
    afterNext_next]

/-! ### The stream as it grows -/

/-- The block is configured for frames of w by h pixels shown for delay ms, takes any number of bytes, and OUT with the header
still to come put after it holds written. -/
structure Streaming (w h : BitVec 16) (delay : Nat) (written : List Byte) (s : State) : Prop where
  fault : s.status.fault = .none
  cfg : s.status.cfg = true
  fin : s.status.fin = false
  width : s.width = w
  height : s.height = h
  delayMs : s.delayMs.toNat = delay
  unbounded : s.params.outCapacity = none
  written : s.outRead ++ s.pendingHeader = written

/-- After CONFIGURE the stream is the header, still to come (R185). -/
theorem streaming_configured {s : State} (hs : s.status.fault = .none) (hout : s.params.outCapacity = none)
    (w h : BitVec 16) {delay : Nat} (hdelay : delay ≤ 655354) (r : Response) :
    Streaming w h delay (headerBytes w.toNat h.toNat)
      ((((s.setConfig w h (BitVec.ofNat 23 delay)).setOut []).setStatus s.status.configured).respond r).releasePix where
  fault := hs
  cfg := rfl
  fin := rfl
  width := rfl
  height := rfl
  delayMs := (BitVec.toNat_ofNat _ _).trans (Nat.mod_eq_of_lt (by omega))
  unbounded := hout
  written := rfl

/-- CONFIGURE starts the stream, in either form. -/
theorem step_configure {s : State} {w h : BitVec 16} {configure : Instr} {delay : Nat} {rest : List HostEvent}
    (hs : s.status.fault = .none) (hout : s.params.outCapacity = none) (hmax : s.params.maxFramePixels = none)
    (hw : w ≠ 0#16) (hh : h ≠ 0#16)
    (hconf : configure = .configureDefault w h ∧ delay = 100 ∨
      ∃ d : BitVec 23, configure = .configureDelay w h d ∧ delay = effectiveDelayGiven s.params d ∧ d.toNat ≤ 655354)
    (hin : s.inputs = .command { word := encode configure, pixels := [] } :: rest) :
    ∃ t, step s = .next t ∧ Streaming w h delay (headerBytes w.toNat h.toNat) t ∧ t.inputs = rest := by
  have hpix : exceeds (w.toNat * h.toNat) (s.present [] rest).params.maxFramePixels = false := by
    rw [exceeds_eq_false_iff, State.present_params, hmax]
    exact nofun
  rcases hconf with ⟨rfl, rfl⟩ | ⟨d, rfl, rfl, hd⟩
  · have hrun : RunsToEnd (s.present [] rest) (.configureDefault w h) := ⟨hw, hh, hpix⟩
    exact ⟨_, step_of_runsToEnd hin hs hrun, streaming_configured (s := s.present [] rest) hs hout w h (by decide) _, rfl⟩
  · have hdelay := effectiveDelayGiven_le s.params hd
    have hrun : RunsToEnd (s.present [] rest) (.configureDelay w h d) := ⟨hw, hh, hdelay, hpix⟩
    exact ⟨_, step_of_runsToEnd hin hs hrun, streaming_configured (s := s.present [] rest) hs hout w h hdelay _, rfl⟩

/-- ADD_FRAME on a buffer of the right length adds the frame's bytes (R186). -/
theorem Streaming.step_addFrame {w h : BitVec 16} {delay : Nat} {written f : List Byte} {s : State} {rest : List HostEvent}
    (hstream : Streaming w h delay written s) (hpos : 1 ≤ w.toNat * h.toNat) (hf : f.length = w.toNat * h.toNat * 4)
    (hin : s.inputs = .command { word := encode .addFrame, pixels := f } :: rest) :
    ∃ t, step s = .next t ∧ Streaming w h delay (written ++ frameBytes delay w.toNat h.toNat f) t ∧ t.inputs = rest := by
  obtain ⟨hs, hcfg, hfin, rfl, rfl, rfl, hout, hwritten⟩ := hstream
  have hlen : (s.present f rest).pixLen = s.pixelCount * 4 := (Memory.ofBytes_length f).trans hf
  have hrun : RunsToEnd (s.present f rest) .addFrame :=
    runsToEnd_addFrame hcfg hfin hlen hpos (State.fits_unbounded _ _ hout)
  have hbytes : (s.present f rest).addFrameBytes =
      s.pendingHeader ++ frameBytes s.delayMs.toNat s.width.toNat s.height.toNat f := by
    rw [State.addFrameBytes, State.pixBytes, State.present_pix, Memory.ofBytes_bytes]
    rfl
  refine ⟨_, step_of_runsToEnd hin hs hrun, ⟨hs, hcfg, hfin, rfl, rfl, rfl, hout, ?_⟩, rfl⟩
  have houtRead : (completedState (s.present f rest) .addFrame).releasePix.outRead =
      s.outRead ++ (s.present f rest).addFrameBytes := (s.present f rest).appendOut_outRead _
  have hpending : (completedState (s.present f rest) .addFrame).releasePix.pendingHeader = [] := rfl
  rw [houtRead, hpending, hbytes, List.append_nil, ← List.append_assoc, hwritten]

/-- FINISH adds the trailer and completes the run (R187, R230). -/
theorem Streaming.step_finish {w h : BitVec 16} {delay : Nat} {written : List Byte} {s : State}
    (hstream : Streaming w h delay written s) (hin : s.inputs = [.command { word := encode .finish, pixels := [] }]) :
    ∃ t, step s = .next t ∧ t.Completed ∧ t.outRead = written ++ trailer := by
  have hrun : RunsToEnd (s.present [] []) .finish :=
    ⟨hstream.cfg, hstream.fin, State.fits_unbounded _ _ hstream.unbounded⟩
  refine ⟨_, step_of_runsToEnd hin hstream.fault hrun, ⟨hstream.fault, rfl⟩, ?_⟩
  have houtRead : (completedState (s.present [] []) .finish).releasePix.outRead = s.outRead ++ s.finishBytes :=
    (s.present [] []).appendOut_outRead _
  rw [houtRead, State.finishBytes, ← List.append_assoc, hstream.written]

/-- One ADD_FRAME per buffer, and FINISH. -/
theorem Streaming.run_frames {w h : BitVec 16} {delay : Nat} (hpos : 1 ≤ w.toNat * h.toNat) {frames : List (List Byte)}
    (hframes : ∀ f ∈ frames, f.length = w.toNat * h.toNat * 4) {written : List Byte} {s : State}
    (hstream : Streaming w h delay written s)
    (hin : s.inputs = (frames.map fun f => HostEvent.command { word := encode .addFrame, pixels := f }) ++
      [.command { word := encode .finish, pixels := [] }]) :
    ∃ t, Host.Core.run core (frames.length + 1) s = .next t ∧ t.Completed ∧
      t.outRead = written ++ (frames.map (frameBytes delay w.toNat h.toNat)).flatten ++ trailer := by
  induction frames generalizing written s with
  | nil =>
    obtain ⟨t, hstep, hdone, hout⟩ := hstream.step_finish hin
    exact ⟨t, run_one_of_step hstep, hdone, by rw [hout, List.map_nil, List.flatten_nil, List.append_nil]⟩
  | cons f frames ih =>
    obtain ⟨t, hstep, hnext, hrest⟩ := hstream.step_addFrame hpos (hframes f (by simp)) hin
    obtain ⟨u, hrun, hdone, hout⟩ := ih (fun g hg => hframes g (by simp [hg])) hnext hrest
    exact ⟨u, (run_succ_of_step _ hstep).trans hrun, hdone,
      by rw [hout, List.map_cons, List.flatten_cons, List.append_assoc written]⟩

/-- Settles O58: CONFIGURE starts the stream at the header, every ADD_FRAME adds its frame, FINISH the trailer. -/
theorem streamOfFrames : Obligations.StreamOfFrames := by
  unfold Obligations.StreamOfFrames
  intro s w h configure delay frames hs hout hmax hw hh hconf hframes hin
  have hpos : 1 ≤ w.toNat * h.toNat :=
    Nat.mul_pos (Nat.pos_of_ne_zero (mt (toNat_eq_zero_iff w).mp hw)) (Nat.pos_of_ne_zero (mt (toNat_eq_zero_iff h).mp hh))
  obtain ⟨t, hstep, hstream, hrest⟩ := step_configure hs hout hmax hw hh hconf hin
  obtain ⟨u, hrun, hdone, hout'⟩ := hstream.run_frames hpos hframes hrest
  exact ⟨u, (run_succ_of_step _ hstep).trans hrun, hdone, hout'⟩

end Sys2Proof.Machine
end
